-- ==== Sys2Proof/Word.lean ====
section
/-! DEFINITION. The word of the machine and the two bit widths an instruction word is made of. -/

namespace Sys2Proof

/-- R6: an unsigned 16-bit integer, the sole unit of memory and register storage. -/
abbrev Word := BitVec 16

/-- R5: the high or low byte of a word. The opcode of an instruction is one (R70). -/
abbrev Byte := BitVec 8

/-- R74: a register field of an instruction word, 0..15, of which 0..8 name GR0..GR8. -/
abbrev RegField := BitVec 4

/-- The number of words of memory (R4, `MEM_WORDS`). -/
def memWords : Nat := 65536

end Sys2Proof
end

