-- ==== Sys2Proof/Config.lean ====
section
/-! DEFINITION. What an implementation fixes: the parameters of R4 that have a default in the spec as a structure that every
operation takes as an argument, its OPEN parameters as constants without a body, and the free line of the console. The defaults
stand in Decode.lean. -/

namespace Sys2Proof

/-- R102: which value ZF tests for ADDA, SUBA, ADDL and SUBL. -/
inductive ZfBasis
  | masked
  | unmasked
  deriving DecidableEq, Repr

/-- R4: the parameters that have a default in the spec. Any value of `ZF_BASIS` and of the four `OPC_*` is a machine of the spec;
the state carries them (`State.params`), and no step and no load changes them. Log entry 17. -/
structure Params where
  /-- `ZF_BASIS` (R102) -/
  zfBasis : ZfBasis
  /-- `OPC_IN` (R80, R251) -/
  opcIn : Byte
  /-- `OPC_OUT` (R80, R252) -/
  opcOut : Byte
  /-- `OPC_RPUSH` (R80, R224) -/
  opcRpush : Byte
  /-- `OPC_RPOP` (R80, R225) -/
  opcRpop : Byte
  deriving DecidableEq, Repr

/-- R54: the order of the two bytes of a word in a byte serialisation of the load stream. -/
inductive ByteOrder
  | highByteFirst
  | lowByteFirst
  deriving DecidableEq, Repr, Inhabited

/-- `SP_INIT` (R4, R300): the initial stack top, OPEN in the spec. DESIGN CHOICE, log entry 3; safe. -/
opaque Config.spInit : Word

/-- `IN_MAX_CHARS` (R4, R251): how many characters IN stores at most, OPEN in the spec. DESIGN CHOICE, log entry 6; safe. -/
opaque Config.inMaxChars : Nat

/-- `MAGIC` (R4, R99): the two-character tag in header words 0 and 1, OPEN in the spec. DESIGN CHOICE, log entry 15; safe. -/
opaque Config.magic : Word × Word

/-- `STREAM_BYTE_ORDER` (R4, R54), OPEN in the spec. DESIGN CHOICE, log entry 15; safe. -/
opaque Config.streamByteOrder : ByteOrder

/-- R253: the line the host's provider answers at the n-th IN when the state lists no answer: a draw, any finite sequence of
character codes. DESIGN CHOICE, log entry 7; safe. -/
opaque Config.freeLine : Nat → List Nat

end Sys2Proof
end

