-- ==== Sys2Proof/Syntax.lean ====
section
/-! DEFINITION. The instructions of the dispatch table (R80), one constructor per row, and the six shapes (R71, R72).
A register field is kept as the 4 bits the word holds, since a decoder tolerates any bit pattern (R73) and the step checks the
field afterwards (R79); log entry 10. The bits a shape ignores are not kept (R73). -/

namespace Sys2Proof

/-- R71, R72: the argument decoders. -/
inductive Shape
  /-- no operand, 1 word -/
  | n
  /-- single register, 1 word -/
  | r
  /-- register pair, 1 word -/
  | rr
  /-- address and index, 2 words -/
  | ax
  /-- register, address and index, 2 words -/
  | rax
  /-- string pair, 3 words -/
  | s
  deriving DecidableEq, Repr

/-- R71: the word length of a shape. -/
def Shape.length : Shape → Nat
  | .n => 1
  | .r => 1
  | .rr => 1
  | .ax => 2
  | .rax => 2
  | .s => 3

/-- R80: the dispatch table's rows, in its order; an address form ends in Adr, a register-pair form in Reg (R81). -/
inductive Instr
  /-- LD r,adr,x (R121) -/
  | ldAdr (r : RegField) (adr : Word) (x : RegField)
  /-- ST r,adr,x (R123) -/
  | st (r : RegField) (adr : Word) (x : RegField)
  /-- LAD r,adr,x (R124) -/
  | lad (r : RegField) (adr : Word) (x : RegField)
  /-- LD r1,r2 (R122) -/
  | ldReg (r1 r2 : RegField)
  /-- ADDA r,adr,x (R141) -/
  | addaAdr (r : RegField) (adr : Word) (x : RegField)
  /-- SUBA r,adr,x (R143) -/
  | subaAdr (r : RegField) (adr : Word) (x : RegField)
  /-- ADDL r,adr,x (R145) -/
  | addlAdr (r : RegField) (adr : Word) (x : RegField)
  /-- SUBL r,adr,x (R147) -/
  | sublAdr (r : RegField) (adr : Word) (x : RegField)
  /-- ADDA r1,r2 (R142) -/
  | addaReg (r1 r2 : RegField)
  /-- SUBA r1,r2 (R144) -/
  | subaReg (r1 r2 : RegField)
  /-- ADDL r1,r2 (R146) -/
  | addlReg (r1 r2 : RegField)
  /-- SUBL r1,r2 (R148) -/
  | sublReg (r1 r2 : RegField)
  /-- AND r,adr,x (R149) -/
  | andAdr (r : RegField) (adr : Word) (x : RegField)
  /-- OR r,adr,x (R151) -/
  | orAdr (r : RegField) (adr : Word) (x : RegField)
  /-- XOR r,adr,x (R153) -/
  | xorAdr (r : RegField) (adr : Word) (x : RegField)
  /-- AND r1,r2 (R150) -/
  | andReg (r1 r2 : RegField)
  /-- OR r1,r2 (R152) -/
  | orReg (r1 r2 : RegField)
  /-- XOR r1,r2 (R154) -/
  | xorReg (r1 r2 : RegField)
  /-- CPA r,adr,x (R155) -/
  | cpaAdr (r : RegField) (adr : Word) (x : RegField)
  /-- CPL r,adr,x (R157) -/
  | cplAdr (r : RegField) (adr : Word) (x : RegField)
  /-- CPA r1,r2 (R156) -/
  | cpaReg (r1 r2 : RegField)
  /-- CPL r1,r2 (R158) -/
  | cplReg (r1 r2 : RegField)
  /-- SLA r,adr,x (R181) -/
  | sla (r : RegField) (adr : Word) (x : RegField)
  /-- SRA r,adr,x (R182) -/
  | sra (r : RegField) (adr : Word) (x : RegField)
  /-- SLL r,adr,x (R183) -/
  | sll (r : RegField) (adr : Word) (x : RegField)
  /-- SRL r,adr,x (R184) -/
  | srl (r : RegField) (adr : Word) (x : RegField)
  /-- JMI adr,x (R201) -/
  | jmi (adr : Word) (x : RegField)
  /-- JNZ adr,x (R202) -/
  | jnz (adr : Word) (x : RegField)
  /-- JZE adr,x (R203) -/
  | jze (adr : Word) (x : RegField)
  /-- JUMP adr,x (R204) -/
  | jump (adr : Word) (x : RegField)
  /-- JPL adr,x (R205) -/
  | jpl (adr : Word) (x : RegField)
  /-- JOV adr,x (R206) -/
  | jov (adr : Word) (x : RegField)
  /-- PUSH adr,x (R220) -/
  | push (adr : Word) (x : RegField)
  /-- POP r (R221) -/
  | pop (r : RegField)
  /-- CALL adr,x (R222) -/
  | call (adr : Word) (x : RegField)
  /-- RET (R223) -/
  | ret
  /-- IN buf,lenadr (R251) -/
  | input (buf lenadr : Word)
  /-- OUT buf,lenadr (R252) -/
  | output (buf lenadr : Word)
  /-- RPUSH (R224) -/
  | rpush
  /-- RPOP (R225) -/
  | rpop
  /-- SVC adr,x (R250) -/
  | svc (adr : Word) (x : RegField)
  deriving DecidableEq, Repr

/-- R80: the shape of each row. -/
def Instr.shape : Instr → Shape
  | .ldAdr _ _ _ => .rax
  | .st _ _ _ => .rax
  | .lad _ _ _ => .rax
  | .ldReg _ _ => .rr
  | .addaAdr _ _ _ => .rax
  | .subaAdr _ _ _ => .rax
  | .addlAdr _ _ _ => .rax
  | .sublAdr _ _ _ => .rax
  | .addaReg _ _ => .rr
  | .subaReg _ _ => .rr
  | .addlReg _ _ => .rr
  | .sublReg _ _ => .rr
  | .andAdr _ _ _ => .rax
  | .orAdr _ _ _ => .rax
  | .xorAdr _ _ _ => .rax
  | .andReg _ _ => .rr
  | .orReg _ _ => .rr
  | .xorReg _ _ => .rr
  | .cpaAdr _ _ _ => .rax
  | .cplAdr _ _ _ => .rax
  | .cpaReg _ _ => .rr
  | .cplReg _ _ => .rr
  | .sla _ _ _ => .rax
  | .sra _ _ _ => .rax
  | .sll _ _ _ => .rax
  | .srl _ _ _ => .rax
  | .jmi _ _ => .ax
  | .jnz _ _ => .ax
  | .jze _ _ => .ax
  | .jump _ _ => .ax
  | .jpl _ _ => .ax
  | .jov _ _ => .ax
  | .push _ _ => .ax
  | .pop _ => .r
  | .call _ _ => .ax
  | .ret => .n
  | .input _ _ => .s
  | .output _ _ => .s
  | .rpush => .n
  | .rpop => .n
  | .svc _ _ => .ax

/-- R71: how many words the instruction takes. -/
def Instr.length (i : Instr) : Nat := i.shape.length

/-- R72, R79: the register fields the instruction's shape uses. -/
def Instr.regFields : Instr → List RegField
  | .ldAdr r _ x => [r, x]
  | .st r _ x => [r, x]
  | .lad r _ x => [r, x]
  | .ldReg r1 r2 => [r1, r2]
  | .addaAdr r _ x => [r, x]
  | .subaAdr r _ x => [r, x]
  | .addlAdr r _ x => [r, x]
  | .sublAdr r _ x => [r, x]
  | .addaReg r1 r2 => [r1, r2]
  | .subaReg r1 r2 => [r1, r2]
  | .addlReg r1 r2 => [r1, r2]
  | .sublReg r1 r2 => [r1, r2]
  | .andAdr r _ x => [r, x]
  | .orAdr r _ x => [r, x]
  | .xorAdr r _ x => [r, x]
  | .andReg r1 r2 => [r1, r2]
  | .orReg r1 r2 => [r1, r2]
  | .xorReg r1 r2 => [r1, r2]
  | .cpaAdr r _ x => [r, x]
  | .cplAdr r _ x => [r, x]
  | .cpaReg r1 r2 => [r1, r2]
  | .cplReg r1 r2 => [r1, r2]
  | .sla r _ x => [r, x]
  | .sra r _ x => [r, x]
  | .sll r _ x => [r, x]
  | .srl r _ x => [r, x]
  | .jmi _ x => [x]
  | .jnz _ x => [x]
  | .jze _ x => [x]
  | .jump _ x => [x]
  | .jpl _ x => [x]
  | .jov _ x => [x]
  | .push _ x => [x]
  | .pop r => [r]
  | .call _ x => [x]
  | .ret => []
  | .input _ _ => []
  | .output _ _ => []
  | .rpush => []
  | .rpop => []
  | .svc _ x => [x]

end Sys2Proof
end

