-- ==== Sys2Proof/WellFormed.lean ====
section
/-! DEFINITION. The registers a register field can name, and the check R79 makes of an instruction's register fields. -/

namespace Sys2Proof

/-- R20: the register file's nine registers. GR8 is the stack pointer SP (R21). -/
inductive Reg
  | gr0
  | gr1
  | gr2
  | gr3
  | gr4
  | gr5
  | gr6
  | gr7
  | gr8
  deriving DecidableEq, Repr

/-- R20, R74: the number of a register, the value of the field that names it. -/
def Reg.number : Reg → Nat
  | .gr0 => 0
  | .gr1 => 1
  | .gr2 => 2
  | .gr3 => 3
  | .gr4 => 4
  | .gr5 => 5
  | .gr6 => 6
  | .gr7 => 7
  | .gr8 => 8

/-- R79: a used register field is in range when it names one of GR0..GR8. -/
def RegField.ok (f : RegField) : Bool := f.toNat ≤ 8

/-- R79: every register field the shape uses is in range. -/
def Instr.wf (i : Instr) : Bool := i.regFields.all RegField.ok

end Sys2Proof
end

