-- ==== Sys2Proof/Decode.lean ====
section
/-! DEFINITION. The decoder: total on any list of words, rejecting by name; and after it the encoder, written from the same
tables of the spec (R72, R80). -/

namespace Sys2Proof

/-- R4: the defaults, `ZF_BASIS` = masked (R102; DESIGN CHOICE of the spec, log entry 4) and the four `OPC_*` of R80 (PRESUMED by
the spec, log entry 5). State.reset has them; a claim about a state holds for whatever parameters the state has. -/
def defaultParams : Params where
  zfBasis := .masked
  opcIn := 0x90
  opcOut := 0x91
  opcRpush := 0xA0
  opcRpop := 0xA1

/-- R70, R78: the high byte of word 1, which alone selects the instruction. -/
def opcodeByte (w1 : Word) : Byte := w1.extractLsb' 8 8

/-- R72: bits 7..4 of word 1 (`r` or `r1`). -/
def highNibble (w1 : Word) : RegField := w1.extractLsb' 4 4

/-- R72: bits 3..0 of word 1 (`x` or `r2`). -/
def lowNibble (w1 : Word) : RegField := w1.extractLsb' 0 4

/-- One row of the dispatch table: the shape, with the constructor that takes the operands the shape returns (R72). -/
inductive OpRow
  | n (i : Instr)
  | r (mk : RegField → Instr)
  | rr (mk : RegField → RegField → Instr)
  | ax (mk : Word → RegField → Instr)
  | rax (mk : RegField → Word → RegField → Instr)
  | s (mk : Word → Word → Instr)

/-- The shape of a row. -/
def OpRow.shape : OpRow → Shape
  | .n _ => .n
  | .r _ => .r
  | .rr _ => .rr
  | .ax _ => .ax
  | .rax _ => .rax
  | .s _ => .s

/-- R80, opcodes 10 to 14. -/
def loadStoreRows : List (Byte × OpRow) :=
  [(0x10, .rax .ldAdr), (0x11, .rax .st), (0x12, .rax .lad), (0x14, .rr .ldReg)]

/-- R80, opcodes 20 to 27. -/
def arithRows : List (Byte × OpRow) :=
  [(0x20, .rax .addaAdr), (0x21, .rax .subaAdr), (0x22, .rax .addlAdr), (0x23, .rax .sublAdr),
   (0x24, .rr .addaReg), (0x25, .rr .subaReg), (0x26, .rr .addlReg), (0x27, .rr .sublReg)]

/-- R80, opcodes 30 to 36. -/
def bitwiseRows : List (Byte × OpRow) :=
  [(0x30, .rax .andAdr), (0x31, .rax .orAdr), (0x32, .rax .xorAdr), (0x34, .rr .andReg),
   (0x35, .rr .orReg), (0x36, .rr .xorReg)]

/-- R80, opcodes 40 to 45. -/
def compareRows : List (Byte × OpRow) :=
  [(0x40, .rax .cpaAdr), (0x41, .rax .cplAdr), (0x44, .rr .cpaReg), (0x45, .rr .cplReg)]

/-- R80, opcodes 50 to 53. -/
def shiftRows : List (Byte × OpRow) :=
  [(0x50, .rax .sla), (0x51, .rax .sra), (0x52, .rax .sll), (0x53, .rax .srl)]

/-- R80, opcodes 61 to 66. -/
def branchRows : List (Byte × OpRow) :=
  [(0x61, .ax .jmi), (0x62, .ax .jnz), (0x63, .ax .jze), (0x64, .ax .jump),
   (0x65, .ax .jpl), (0x66, .ax .jov)]

/-- R80, opcodes 70 to 81. -/
def stackRows : List (Byte × OpRow) :=
  [(0x70, .ax .push), (0x71, .r .pop), (0x80, .ax .call), (0x81, .n .ret)]

/-- R80, opcode F0. -/
def systemRows : List (Byte × OpRow) := [(0xF0, .ax .svc)]

/-- R80: the rows whose opcode number the spec gives. -/
def fixedRows : List (Byte × OpRow) :=
  loadStoreRows ++ arithRows ++ bitwiseRows ++ compareRows ++ shiftRows ++ branchRows ++ stackRows ++ systemRows

/-- R80: the rows marked P, whose opcode number is a parameter. -/
def paramRows (p : Params) : List (Byte × OpRow) :=
  [(p.opcIn, .s .input), (p.opcOut, .s .output), (p.opcRpush, .n .rpush), (p.opcRpop, .n .rpop)]

/-- R80: the dispatch table. -/
def opcodeTable (p : Params) : List (Byte × OpRow) := fixedRows ++ paramRows p

/-- The parameters give a table in which each opcode byte has one row at most, as R80's has with the defaults (log entry 17), and
0x00 has none (R83). -/
def Params.ok (p : Params) : Bool := decide (0 :: (opcodeTable p).map Prod.fst).Nodup

/-- R87: the row of an opcode byte, if the table has one (R82). Opcode 0x00 has none, whatever the parameters (R83, R254). -/
def opcodeRow (p : Params) (op : Byte) : Option OpRow := if op = 0 then none else (opcodeTable p).lookup op

/-- R77: the length an opcode byte fixes; one word is looked at when it has no row. -/
def opcodeLength (p : Params) (op : Byte) : Nat :=
  match opcodeRow p op with
  | some row => row.shape.length
  | none => 1

/-- Why a list of words is not an instruction. -/
inductive DecodeError
  /-- R82: the opcode byte has no row in the dispatch table. -/
  | unknownOpcode (op : Byte)
  /-- The list ends before the words the shape takes. No fetch gives such a list. -/
  | truncated
  deriving DecidableEq, Repr

/-- R72: the operands of a row's shape, from word 1 and the words after it; the words left over are handed back. -/
def OpRow.operands (w1 : Word) : OpRow → List Word → Except DecodeError (Instr × List Word)
  | .n i, rest => .ok (i, rest)
  | .r mk, rest => .ok (mk (highNibble w1), rest)
  | .rr mk, rest => .ok (mk (highNibble w1) (lowNibble w1), rest)
  | .ax mk, adr :: rest => .ok (mk adr (lowNibble w1), rest)
  | .ax _, [] => .error .truncated
  | .rax mk, adr :: rest => .ok (mk (highNibble w1) adr (lowNibble w1), rest)
  | .rax _, [] => .error .truncated
  | .s mk, buf :: lenadr :: rest => .ok (mk buf lenadr, rest)
  | .s _, [_] => .error .truncated
  | .s _, [] => .error .truncated

/-- R70 to R83: the instruction at the head of a list of words, and the words after it. -/
def decode (p : Params) : List Word → Except DecodeError (Instr × List Word)
  | [] => .error .truncated
  | w1 :: rest =>
    match opcodeRow p (opcodeByte w1) with
    | some row => row.operands w1 rest
    | none => .error (.unknownOpcode (opcodeByte w1))

/-- R72: word 1 from the opcode byte and its two nibbles. An ignored nibble is written as 0. -/
def word1 (op : Byte) (high low : RegField) : Word := op ++ high ++ low

/-- R72, R80: the words of an instruction. -/
def encode (p : Params) : Instr → List Word
  | .ldAdr r adr x => [word1 0x10 r x, adr]
  | .st r adr x => [word1 0x11 r x, adr]
  | .lad r adr x => [word1 0x12 r x, adr]
  | .ldReg r1 r2 => [word1 0x14 r1 r2]
  | .addaAdr r adr x => [word1 0x20 r x, adr]
  | .subaAdr r adr x => [word1 0x21 r x, adr]
  | .addlAdr r adr x => [word1 0x22 r x, adr]
  | .sublAdr r adr x => [word1 0x23 r x, adr]
  | .addaReg r1 r2 => [word1 0x24 r1 r2]
  | .subaReg r1 r2 => [word1 0x25 r1 r2]
  | .addlReg r1 r2 => [word1 0x26 r1 r2]
  | .sublReg r1 r2 => [word1 0x27 r1 r2]
  | .andAdr r adr x => [word1 0x30 r x, adr]
  | .orAdr r adr x => [word1 0x31 r x, adr]
  | .xorAdr r adr x => [word1 0x32 r x, adr]
  | .andReg r1 r2 => [word1 0x34 r1 r2]
  | .orReg r1 r2 => [word1 0x35 r1 r2]
  | .xorReg r1 r2 => [word1 0x36 r1 r2]
  | .cpaAdr r adr x => [word1 0x40 r x, adr]
  | .cplAdr r adr x => [word1 0x41 r x, adr]
  | .cpaReg r1 r2 => [word1 0x44 r1 r2]
  | .cplReg r1 r2 => [word1 0x45 r1 r2]
  | .sla r adr x => [word1 0x50 r x, adr]
  | .sra r adr x => [word1 0x51 r x, adr]
  | .sll r adr x => [word1 0x52 r x, adr]
  | .srl r adr x => [word1 0x53 r x, adr]
  | .jmi adr x => [word1 0x61 0 x, adr]
  | .jnz adr x => [word1 0x62 0 x, adr]
  | .jze adr x => [word1 0x63 0 x, adr]
  | .jump adr x => [word1 0x64 0 x, adr]
  | .jpl adr x => [word1 0x65 0 x, adr]
  | .jov adr x => [word1 0x66 0 x, adr]
  | .push adr x => [word1 0x70 0 x, adr]
  | .pop r => [word1 0x71 r 0]
  | .call adr x => [word1 0x80 0 x, adr]
  | .ret => [word1 0x81 0 0]
  | .input buf lenadr => [word1 p.opcIn 0 0, buf, lenadr]
  | .output buf lenadr => [word1 p.opcOut 0 0, buf, lenadr]
  | .rpush => [word1 p.opcRpush 0 0]
  | .rpop => [word1 p.opcRpop 0 0]
  | .svc adr x => [word1 0xF0 0 x, adr]

/-- The three words whose bits, counted from bit 0 of the first, are the low `nbits` bits of `w`; the bits above are 0. -/
def tableWords (nbits w : Nat) : List Word :=
  let v := w % 2 ^ nbits
  [BitVec.ofNat 16 v, BitVec.ofNat 16 (v / 2 ^ 16), BitVec.ofNat 16 (v / 2 ^ 32)]

/-- The instruction the decoder reads from an instruction whose bits are `w`, numbered as spec/opcode_table.json numbers
them, the parameters being the defaults, which the table has; the memory is word-addressed, so the first word stands at the
lowest address (R51, R72). -/
def decodeTableWord (nbits w : Nat) : Option Instr :=
  match decode defaultParams (tableWords nbits w) with
  | .ok (i, _) => some i
  | .error _ => none

end Sys2Proof
end

