-- ==== Sys2Proof/Machine/Memory.lean ====
section
/-! DEFINITION. The memory: 65536 words of 16 bits in one word-addressed space (R50, R51), as a sparse list in one canonical
form. -/

namespace Sys2Proof.Machine

/-- One word of memory at its address. The word is the smallest unit an address names (R51); log entry 1. -/
abbrev Cell := Nat × Word

/-- The words that differ from what an unlisted address reads as, by rising address. -/
abbrev Memory := List Cell

/-- R300: load zeroes the memory, so a word that nothing has written reads as 0. -/
def Memory.unlisted : Word := 0

/-- R7, `M[a]`. -/
def Memory.read : Memory → Nat → Word
  | [], _ => Memory.unlisted
  | (k, v) :: rest, a => if k = a then v else Memory.read rest a

/-- The cell of an address with its word, left out when the word is what an unlisted address reads as. -/
def Memory.cell (a : Nat) (v : Word) : Memory := if v = Memory.unlisted then [] else [(a, v)]

/-- The list without the entries of an address. -/
def Memory.erase : Memory → Nat → Memory
  | [], _ => []
  | (k, w) :: rest, a => if k = a then Memory.erase rest a else (k, w) :: Memory.erase rest a

/-- The list with an entry put before the first higher address. -/
def Memory.insert : Memory → Nat → Word → Memory
  | [], a, v => [(a, v)]
  | (k, w) :: rest, a, v => if a < k then (a, v) :: (k, w) :: rest else (k, w) :: Memory.insert rest a v

/-- R7, `M[a] <- v`, keeping the canonical form. -/
def Memory.write (m : Memory) (a : Nat) (v : Word) : Memory :=
  if v = Memory.unlisted then m.erase a else (m.erase a).insert a v

/-- The canonical form from address `lo` on: addresses strictly rising from `lo`, each below 65536 (R50), and no entry equal to
what an unlisted address reads as. -/
def Memory.wfFrom : Nat → Memory → Bool
  | _, [] => true
  | lo, (k, v) :: rest => lo ≤ k && k < memWords && v != Memory.unlisted && Memory.wfFrom (k + 1) rest

/-- The canonical form. -/
def Memory.wf (m : Memory) : Bool := Memory.wfFrom 0 m

/-- R300: `M[i] <- payload[i]` for each i, from address `a` on, over a memory that is zero from `a` on. -/
def Memory.ofWords : Nat → List Word → Memory
  | _, [] => []
  | a, v :: rest => Memory.cell a v ++ Memory.ofWords (a + 1) rest

end Sys2Proof.Machine
end

