-- ==== Sys2Proof/Machine/Params.lean ====
section
/-! DEFINITION. The OPEN parameters of R4 as the machine reads them. -/

namespace Sys2Proof.Machine

/-- `SP_INIT` (R4, R300): OPEN, log entry 3; safe. -/
def spInit : Word := Config.spInit

/-- `IN_MAX_CHARS` (R4, R251): OPEN, log entry 6; safe. -/
def inMaxChars : Nat := Config.inMaxChars

/-- Header word 2 of the stream that State.reset has loaded (R301, R302). DESIGN CHOICE, log entry 2; unsafe. -/
def resetEntry : Word := 0

end Sys2Proof.Machine
end

