-- ==== Sys2Proof/Machine/State.lean ====
section
/-! DEFINITION. Everything the spec gives the machine, as plain data, and the reasons a step can stop. -/

namespace Sys2Proof.Machine

/-- R20: the register file, nine words. -/
structure Regs where
  gr0 : Word
  gr1 : Word
  gr2 : Word
  gr3 : Word
  gr4 : Word
  gr5 : Word
  gr6 : Word
  gr7 : Word
  gr8 : Word
  deriving DecidableEq, Repr

/-- R40: why the machine is halted. -/
inductive HaltReason
  /-- RET at call level 0 (R273) -/
  | machineExit
  /-- an opcode with no dispatch entry, at the address `a` (R271) -/
  | invalidOperation (a : Word)
  /-- a used register field above 8, in the instruction at the address `a` (R272) -/
  | invalidRegister (a : Word)
  deriving DecidableEq, Repr

/-- R40: the machine status. -/
inductive Status
  | ready
  | running
  | halted (reason : HaltReason)
  deriving DecidableEq, Repr

/-- R253: the host's answer to one console read. -/
inductive ConsoleAnswer
  /-- a line, a finite sequence of character codes -/
  | line (codes : List Nat)
  /-- the provider never answers, which leaves IN stuck (R253) -/
  | never
  deriving DecidableEq, Repr

/-- The whole state (10_state.md, R301), the parameters of the machine (R4; log entry 17), and the console's two ends, which stand
for the host (R253; log entries 7, 8). -/
structure State where
  /-- R4: `ZF_BASIS` and the four `OPC_*`, fixed for a machine -/
  params : Params
  /-- R20, R21: GR0..GR8, GR8 being SP -/
  gr : Regs
  /-- R24: the program register -/
  pr : Word
  /-- R26: the overflow flag -/
  of : Bool
  /-- R26: the sign flag -/
  sf : Bool
  /-- R26: the zero flag -/
  zf : Bool
  /-- R30: the call level -/
  level : Nat
  /-- R31: the step counter -/
  steps : Nat
  /-- R40: the machine status -/
  status : Status
  /-- R50: the memory -/
  mem : Memory
  /-- R284: the host's breakpoint set, rising and without repeats -/
  breakpoints : List Nat
  /-- R253, R287: the answers the host has ready for IN, the next one first -/
  consoleIn : List ConsoleAnswer
  /-- R253: how many lines IN has asked for; it picks the free line -/
  consoleReads : Nat
  /-- R253: the lines the sink has received, the oldest first -/
  consoleOut : List (List Word)
  deriving DecidableEq, Repr

/-- What stops a step for good. The halts of R270 are no faults: they are next states with a halted status (R41). -/
inductive Fault
  /-- Raised by IN when the host's provider never answers: the machine is stuck in that step (R253). Safe: the real step never
  ends, so it has no next state either. -/
  | consoleNeverAnswers
  deriving DecidableEq, Repr

/-- What a step refuses. Nothing refuses in this model. -/
inductive Refusal
  /-- Raised by an arm of exec whose instruction has no meaning yet; no arm does. Safe: the machine goes on and the model
  stops. -/
  | notModelled (mnemonic : String)
  deriving DecidableEq, Repr

/-- What one step ends in. -/
abbrev StepOutcome := Host.Outcome State Fault Refusal

/-- R300, R301: the registers after load. -/
def Regs.reset : Regs := ⟨0, 0, 0, 0, 0, 0, 0, 0, spInit⟩

/-- R301: the state after a successful load of a stream with no payload whose header word 2 is `resetEntry` (log entry 2), the
parameters being the defaults (R4), the host's ends of the console empty (log entries 7, 8) and its breakpoint set empty (log
entry 11). -/
def State.reset : State where
  params := defaultParams
  gr := Regs.reset
  pr := resetEntry
  of := false
  sf := false
  zf := true
  level := 0
  steps := 0
  status := .ready
  mem := []
  breakpoints := []
  consoleIn := []
  consoleReads := 0
  consoleOut := []

end Sys2Proof.Machine
end

