-- ==== Sys2Proof/Machine/Flags.lean ====
section
/-! DEFINITION. The two views of a word (R6, R100), the flag triple (R89), and every flag computation: the ALU functions of R109
and the shift functions of R180. -/

namespace Sys2Proof.Machine

/-- R6, R100: the signed view of a word. -/
def s16 (w : Word) : Int := w.toInt

/-- R6, R100: any integer masked to a word. -/
def u16 (i : Int) : Word := BitVec.ofInt 16 i

/-- R6: the unsigned view of a word. -/
def unsigned (w : Word) : Int := w.toNat

/-- R103: outside the signed range. -/
def signedOverflow (t : Int) : Bool := t < -32768 || 32767 < t

/-- R104: outside the unsigned range. -/
def unsignedOverflow (t : Int) : Bool := t < 0 || 65535 < t

/-- R101: bit 15 of the masked result. -/
def signBit (w : Word) : Bool := w.getLsbD 15

/-- R102: the zero flag of an add or subtract, from the unmasked and the masked result. -/
def zeroFlag (basis : ZfBasis) (t : Int) (w : Word) : Bool :=
  match basis with
  | .masked => w == 0
  | .unmasked => t == 0

/-- R89: what a handler reports for the flags; `none` is a null component. -/
structure FlagTriple where
  of : Option Bool
  sf : Option Bool
  zf : Option Bool
  deriving DecidableEq, Repr

/-- A triple with no null component. -/
def FlagTriple.full (of sf zf : Bool) : FlagTriple := ⟨some of, some sf, some zf⟩

/-- R101 to R104: the masked result of an add or subtract with its flags. -/
def arithResult (basis : ZfBasis) (overflow : Int → Bool) (t : Int) : Word × FlagTriple :=
  (u16 t, .full (overflow t) (signBit (u16 t)) (zeroFlag basis t (u16 t)))

/-- R109. -/
def adda (basis : ZfBasis) (a b : Word) : Word × FlagTriple := arithResult basis signedOverflow (s16 a + s16 b)

/-- R109. -/
def suba (basis : ZfBasis) (a b : Word) : Word × FlagTriple := arithResult basis signedOverflow (s16 a - s16 b)

/-- R109. -/
def addl (basis : ZfBasis) (a b : Word) : Word × FlagTriple := arithResult basis unsignedOverflow (unsigned a + unsigned b)

/-- R109. -/
def subl (basis : ZfBasis) (a b : Word) : Word × FlagTriple := arithResult basis unsignedOverflow (unsigned a - unsigned b)

/-- R105: the flags of a stored word, OF being given. -/
def storedFlags (of : Bool) (w : Word) : FlagTriple := .full of (signBit w) (w == 0)

/-- R105, R109. -/
def andFn (a b : Word) : Word × FlagTriple := (a &&& b, storedFlags false (a &&& b))

/-- R105, R109. -/
def orFn (a b : Word) : Word × FlagTriple := (a ||| b, storedFlags false (a ||| b))

/-- R105, R109. -/
def xorFn (a b : Word) : Word × FlagTriple := (a ^^^ b, storedFlags false (a ^^^ b))

/-- R105, R109: the flags of a load. -/
def ldFlags (v : Word) : FlagTriple := storedFlags false v

/-- R106: the flags of an exact difference. -/
def compareFlags (d : Int) : FlagTriple := .full false (d < 0) (d == 0)

/-- R106, R109. -/
def cpaFlags (a b : Word) : FlagTriple := compareFlags (s16 a - s16 b)

/-- R106, R109. -/
def cplFlags (a b : Word) : FlagTriple := compareFlags (unsigned a - unsigned b)

/-- R180: the word and OF of `sla`. -/
def slaWord (v : Word) (n : Nat) : Word :=
  if n = 0 then v else (v &&& 0x8000) ||| BitVec.ofNat 16 (v.toNat * 2 ^ n % 2 ^ 15)

/-- R180. -/
def slaOf (v : Word) (n : Nat) : Bool :=
  if n = 0 then false else if n ≤ 15 then v.getLsbD (15 - n) else false

/-- R180: the floor of the signed quotient (Lean's Int division rounds down for a positive divisor). -/
def sraWord (v : Word) (n : Nat) : Word :=
  if n = 0 then v else u16 (s16 v / ((2 ^ n : Nat) : Int))

/-- R180. -/
def sraOf (v : Word) (n : Nat) : Bool :=
  if n = 0 then false else if n ≤ 16 then v.getLsbD (n - 1) else v.getLsbD 15

/-- R180. -/
def sllWord (v : Word) (n : Nat) : Word :=
  if n = 0 then v else BitVec.ofNat 16 (v.toNat * 2 ^ n % 2 ^ 16)

/-- R180. -/
def sllOf (v : Word) (n : Nat) : Bool :=
  if n = 0 then false else if n ≤ 16 then v.getLsbD (16 - n) else false

/-- R180. -/
def srlWord (v : Word) (n : Nat) : Word :=
  if n = 0 then v else BitVec.ofNat 16 (v.toNat / 2 ^ n)

/-- R180. -/
def srlOf (v : Word) (n : Nat) : Bool :=
  if n = 0 then false else if n ≤ 16 then v.getLsbD (n - 1) else false

/-- R180. -/
def slaFn (v : Word) (n : Nat) : Word × FlagTriple := (slaWord v n, storedFlags (slaOf v n) (slaWord v n))

/-- R180. -/
def sraFn (v : Word) (n : Nat) : Word × FlagTriple := (sraWord v n, storedFlags (sraOf v n) (sraWord v n))

/-- R180. -/
def sllFn (v : Word) (n : Nat) : Word × FlagTriple := (sllWord v n, storedFlags (sllOf v n) (sllWord v n))

/-- R180. -/
def srlFn (v : Word) (n : Nat) : Word × FlagTriple := (srlWord v n, storedFlags (srlOf v n) (srlWord v n))

end Sys2Proof.Machine
end

