-- ==== Sys2Proof/Machine/Operands.lean ====
section
/-! DEFINITION. The operand forms: registers by field, memory words by address, the effective address. -/

namespace Sys2Proof.Machine

/-- R23, R74: the register a field names, none for 9..15. -/
def regOfField (f : RegField) : Option Reg :=
  match f.toNat with
  | 0 => some .gr0
  | 1 => some .gr1
  | 2 => some .gr2
  | 3 => some .gr3
  | 4 => some .gr4
  | 5 => some .gr5
  | 6 => some .gr6
  | 7 => some .gr7
  | 8 => some .gr8
  | _ => none

/-- R7: `GR[q]`. -/
def Regs.get (g : Regs) : Reg → Word
  | .gr0 => g.gr0
  | .gr1 => g.gr1
  | .gr2 => g.gr2
  | .gr3 => g.gr3
  | .gr4 => g.gr4
  | .gr5 => g.gr5
  | .gr6 => g.gr6
  | .gr7 => g.gr7
  | .gr8 => g.gr8

/-- R7: `GR[q] <- v`. -/
def Regs.set (g : Regs) (q : Reg) (v : Word) : Regs :=
  match q with
  | .gr0 => { g with gr0 := v }
  | .gr1 => { g with gr1 := v }
  | .gr2 => { g with gr2 := v }
  | .gr3 => { g with gr3 := v }
  | .gr4 => { g with gr4 := v }
  | .gr5 => { g with gr5 := v }
  | .gr6 => { g with gr6 := v }
  | .gr7 => { g with gr7 := v }
  | .gr8 => { g with gr8 := v }

/-- R7: `GR[q]`. -/
def State.reg (s : State) (q : Reg) : Word := s.gr.get q

/-- R7: `GR[q] <- v`. -/
def State.setReg (s : State) (q : Reg) (v : Word) : State := { s with gr := s.gr.set q v }

/-- R21: SP is GR8. -/
def State.sp (s : State) : Word := s.reg .gr8

/-- R21: writing SP is writing GR8. -/
def State.setSp (s : State) (v : Word) : State := s.setReg .gr8 v

/-- R7: `M[a]`; an address is a 16-bit word (R53). -/
def State.readMem (s : State) (a : Word) : Word := s.mem.read a.toNat

/-- R7: `M[a] <- v`. -/
def State.writeMem (s : State) (a v : Word) : State := { s with mem := s.mem.write a.toNat v }

/-- R76: the effective address; a word sum is modulo 65536 (R52). -/
def State.ea (s : State) (adr : Word) (x : Reg) : Word :=
  if x = .gr0 then adr else adr + s.reg x

/-- R26: FR, the flags as a 3-bit value with ZF as bit 0. -/
def State.fr (s : State) : BitVec 3 := BitVec.ofBool s.of ++ BitVec.ofBool s.sf ++ BitVec.ofBool s.zf

end Sys2Proof.Machine
end

