-- ==== Sys2Proof/Machine/Ops.lean ====
section
/-! DEFINITION. The operations every instruction shares: the end of a step, halting and faulting, the register check, and the
stack. -/

namespace Sys2Proof.Machine

/-- R41, R271 to R273, R277: the step ends in a halt or a fault. The status says why, and nothing else changes; no state is saved
and control goes nowhere. There is no return from it (R278): only load leaves a halted status (R300). -/
def raise (reason : HaltReason) (s : State) : StepOutcome := .next { s with status := .halted reason }

/-- R88: what a handler answers. -/
inductive HandlerResult
  /-- fall through to the next instruction -/
  | continue_ (f : Option FlagTriple)
  /-- the jump signal -/
  | jump (target : Word) (f : Option FlagTriple)
  /-- program termination -/
  | halt
  deriving DecidableEq, Repr

/-- R89: a component that is not null overwrites its flag. -/
def flagAfter (new : Option Bool) (old : Bool) : Bool := new.getD old

/-- R89: an absent triple leaves the flags as they are. -/
def State.applyFlags (s : State) : Option FlagTriple → State
  | none => s
  | some f => { s with of := flagAfter f.of s.of, sf := flagAfter f.sf s.sf, zf := flagAfter f.zf s.zf }

/-- R87: the step has completed and PR takes its new value. -/
def State.arrive (s : State) (pr : Word) : State := { s with pr := pr, steps := s.steps + 1, status := .running }

/-- R87, R90, R91: the end of a step, from the handler's result and the state it leaves. -/
def complete (shape : Shape) (s : State) : HandlerResult → StepOutcome
  | .continue_ f => .next ((s.applyFlags f).arrive (s.pr + BitVec.ofNat 16 shape.length))
  | .jump target f => .next ((s.applyFlags f).arrive target)
  | .halt => raise .machineExit s

/-- R79: the check of one used register field, before the handler runs. -/
def withReg (f : RegField) (s : State) (handler : Reg → StepOutcome) : StepOutcome :=
  match regOfField f with
  | some q => handler q
  | none => raise (.invalidRegister s.pr) s

/-- R79: the check of two used register fields. -/
def withRegs (f g : RegField) (s : State) (handler : Reg → Reg → StepOutcome) : StepOutcome :=
  withReg f s fun p => withReg g s fun q => handler p q

/-- R52: `SP <- SP (-) 1`. -/
def State.decSp (s : State) : State := s.setSp (s.sp - 1)

/-- R52: `SP <- SP (+) 1`. -/
def State.incSp (s : State) : State := s.setSp (s.sp + 1)

/-- R220, R222: pre-decrement SP and store a word that was computed before. -/
def State.pushWord (s : State) (v : Word) : State := s.decSp.writeMem s.decSp.sp v

/-- R224: pre-decrement SP and store the register's value as it is then. -/
def State.pushReg (s : State) (q : Reg) : State := s.decSp.writeMem s.decSp.sp (s.decSp.reg q)

/-- R221, R225: load the register from the top word, then post-increment SP as it is then. -/
def State.popReg (s : State) (q : Reg) : State := (s.setReg q (s.readMem s.sp)).incSp

/-- R224: GR1..GR8, ascending. -/
def savedRegs : List Reg := [.gr1, .gr2, .gr3, .gr4, .gr5, .gr6, .gr7, .gr8]

end Sys2Proof.Machine
end

