-- ==== Sys2Proof/Machine/ArithLogic.lean ====
section
/-! DEFINITION. Arithmetic, logical and compare instructions, each in its address form and its register-pair form
(42_arith_logic.md). -/

namespace Sys2Proof.Machine

/-- R140: the address form over an ALU function: `GR[r] <- fn(GR[r], M[EA])`. -/
def aluAdr (fn : Word → Word → Word × FlagTriple) (r : RegField) (adr : Word) (x : RegField) (s : State) : StepOutcome :=
  withRegs r x s fun r x =>
    let result := fn (s.reg r) (s.readMem (s.ea adr x))
    complete .rax (s.setReg r result.1) (.continue_ (some result.2))

/-- R140: the register-pair form over an ALU function: `GR[r1] <- fn(GR[r1], GR[r2])`. -/
def aluReg (fn : Word → Word → Word × FlagTriple) (r1 r2 : RegField) (s : State) : StepOutcome :=
  withRegs r1 r2 s fun r1 r2 =>
    let result := fn (s.reg r1) (s.reg r2)
    complete .rr (s.setReg r1 result.1) (.continue_ (some result.2))

/-- R140: the address form of a compare, which writes no register. -/
def compareAdr (fn : Word → Word → FlagTriple) (r : RegField) (adr : Word) (x : RegField) (s : State) : StepOutcome :=
  withRegs r x s fun r x =>
    complete .rax s (.continue_ (some (fn (s.reg r) (s.readMem (s.ea adr x)))))

/-- R140: the register-pair form of a compare. -/
def compareReg (fn : Word → Word → FlagTriple) (r1 r2 : RegField) (s : State) : StepOutcome :=
  withRegs r1 r2 s fun r1 r2 =>
    complete .rr s (.continue_ (some (fn (s.reg r1) (s.reg r2))))

/-- ADDA r,adr,x (R141). -/
def execAddaAdr (r : RegField) (adr : Word) (x : RegField) (s : State) : StepOutcome := aluAdr (adda s.params.zfBasis) r adr x s

/-- ADDA r1,r2 (R142). -/
def execAddaReg (r1 r2 : RegField) (s : State) : StepOutcome := aluReg (adda s.params.zfBasis) r1 r2 s

/-- SUBA r,adr,x (R143). -/
def execSubaAdr (r : RegField) (adr : Word) (x : RegField) (s : State) : StepOutcome := aluAdr (suba s.params.zfBasis) r adr x s

/-- SUBA r1,r2 (R144). -/
def execSubaReg (r1 r2 : RegField) (s : State) : StepOutcome := aluReg (suba s.params.zfBasis) r1 r2 s

/-- ADDL r,adr,x (R145). -/
def execAddlAdr (r : RegField) (adr : Word) (x : RegField) (s : State) : StepOutcome := aluAdr (addl s.params.zfBasis) r adr x s

/-- ADDL r1,r2 (R146). -/
def execAddlReg (r1 r2 : RegField) (s : State) : StepOutcome := aluReg (addl s.params.zfBasis) r1 r2 s

/-- SUBL r,adr,x (R147). -/
def execSublAdr (r : RegField) (adr : Word) (x : RegField) (s : State) : StepOutcome := aluAdr (subl s.params.zfBasis) r adr x s

/-- SUBL r1,r2 (R148). -/
def execSublReg (r1 r2 : RegField) (s : State) : StepOutcome := aluReg (subl s.params.zfBasis) r1 r2 s

/-- AND r,adr,x (R149). -/
def execAndAdr (r : RegField) (adr : Word) (x : RegField) (s : State) : StepOutcome := aluAdr andFn r adr x s

/-- AND r1,r2 (R150). -/
def execAndReg (r1 r2 : RegField) (s : State) : StepOutcome := aluReg andFn r1 r2 s

/-- OR r,adr,x (R151). -/
def execOrAdr (r : RegField) (adr : Word) (x : RegField) (s : State) : StepOutcome := aluAdr orFn r adr x s

/-- OR r1,r2 (R152). -/
def execOrReg (r1 r2 : RegField) (s : State) : StepOutcome := aluReg orFn r1 r2 s

/-- XOR r,adr,x (R153). -/
def execXorAdr (r : RegField) (adr : Word) (x : RegField) (s : State) : StepOutcome := aluAdr xorFn r adr x s

/-- XOR r1,r2 (R154). -/
def execXorReg (r1 r2 : RegField) (s : State) : StepOutcome := aluReg xorFn r1 r2 s

/-- CPA r,adr,x (R155). -/
def execCpaAdr (r : RegField) (adr : Word) (x : RegField) (s : State) : StepOutcome := compareAdr cpaFlags r adr x s

/-- CPA r1,r2 (R156). -/
def execCpaReg (r1 r2 : RegField) (s : State) : StepOutcome := compareReg cpaFlags r1 r2 s

/-- CPL r,adr,x (R157). -/
def execCplAdr (r : RegField) (adr : Word) (x : RegField) (s : State) : StepOutcome := compareAdr cplFlags r adr x s

/-- CPL r1,r2 (R158). -/
def execCplReg (r1 r2 : RegField) (s : State) : StepOutcome := compareReg cplFlags r1 r2 s

end Sys2Proof.Machine
end

