-- ==== Sys2Proof/Machine/Branch.lean ====
section
/-! DEFINITION. The branches (44_branch.md). -/

namespace Sys2Proof.Machine

/-- R200: jump to EA when the condition holds, else fall through; no flag, register or memory word changes. -/
def branchIf (condition : Bool) (adr : Word) (x : RegField) (s : State) : StepOutcome :=
  withReg x s fun x =>
    complete .ax s (if condition then .jump (s.ea adr x) none else .continue_ none)

/-- JMI adr,x, jump on minus (R201). -/
def execJmi (adr : Word) (x : RegField) (s : State) : StepOutcome := branchIf s.sf adr x s

/-- JNZ adr,x, jump on non-zero (R202). -/
def execJnz (adr : Word) (x : RegField) (s : State) : StepOutcome := branchIf (!s.zf) adr x s

/-- JZE adr,x, jump on zero (R203). -/
def execJze (adr : Word) (x : RegField) (s : State) : StepOutcome := branchIf s.zf adr x s

/-- JUMP adr,x, unconditional jump (R204). -/
def execJump (adr : Word) (x : RegField) (s : State) : StepOutcome := branchIf true adr x s

/-- JPL adr,x, jump on plus (R205). -/
def execJpl (adr : Word) (x : RegField) (s : State) : StepOutcome := branchIf (!s.sf && !s.zf) adr x s

/-- JOV adr,x, jump on overflow (R206). -/
def execJov (adr : Word) (x : RegField) (s : State) : StepOutcome := branchIf s.of adr x s

end Sys2Proof.Machine
end

