-- ==== Sys2Proof/Machine/LoadStore.lean ====
section
/-! DEFINITION. Load, store and load address (41_load_store.md). -/

namespace Sys2Proof.Machine

/-- LD r,adr,x (R121). -/
def execLdAdr (r : RegField) (adr : Word) (x : RegField) (s : State) : StepOutcome :=
  withRegs r x s fun r x =>
    let v := s.readMem (s.ea adr x)
    complete .rax (s.setReg r v) (.continue_ (some (ldFlags v)))

/-- LD r1,r2 (R122). -/
def execLdReg (r1 r2 : RegField) (s : State) : StepOutcome :=
  withRegs r1 r2 s fun r1 r2 =>
    let v := s.reg r2
    complete .rr (s.setReg r1 v) (.continue_ (some (ldFlags v)))

/-- ST r,adr,x (R123). -/
def execSt (r : RegField) (adr : Word) (x : RegField) (s : State) : StepOutcome :=
  withRegs r x s fun r x =>
    complete .rax (s.writeMem (s.ea adr x) (s.reg r)) (.continue_ none)

/-- LAD r,adr,x (R124). -/
def execLad (r : RegField) (adr : Word) (x : RegField) (s : State) : StepOutcome :=
  withRegs r x s fun r x =>
    complete .rax (s.setReg r (s.ea adr x)) (.continue_ none)

end Sys2Proof.Machine
end

