-- ==== Sys2Proof/Machine/Shift.lean ====
section
/-! DEFINITION. The shifts (43_shift.md). -/

namespace Sys2Proof.Machine

/-- R180: `n <- EA; GR[r] <- fn(GR[r], n)`; the amount is the effective address, taken whole. -/
def shiftBy (fn : Word → Nat → Word × FlagTriple) (r : RegField) (adr : Word) (x : RegField) (s : State) : StepOutcome :=
  withRegs r x s fun r x =>
    let result := fn (s.reg r) (s.ea adr x).toNat
    complete .rax (s.setReg r result.1) (.continue_ (some result.2))

/-- SLA r,adr,x (R181). -/
def execSla (r : RegField) (adr : Word) (x : RegField) (s : State) : StepOutcome := shiftBy slaFn r adr x s

/-- SRA r,adr,x (R182). -/
def execSra (r : RegField) (adr : Word) (x : RegField) (s : State) : StepOutcome := shiftBy sraFn r adr x s

/-- SLL r,adr,x (R183). -/
def execSll (r : RegField) (adr : Word) (x : RegField) (s : State) : StepOutcome := shiftBy sllFn r adr x s

/-- SRL r,adr,x (R184). -/
def execSrl (r : RegField) (adr : Word) (x : RegField) (s : State) : StepOutcome := shiftBy srlFn r adr x s

end Sys2Proof.Machine
end

