-- ==== Sys2Proof/Machine/Stack.lean ====
section
/-! DEFINITION. Stack, call and return (45_stack_call.md). -/

namespace Sys2Proof.Machine

/-- PUSH adr,x (R220): the effective address itself, computed with the SP before the decrement. -/
def execPush (adr : Word) (x : RegField) (s : State) : StepOutcome :=
  withReg x s fun x => complete .ax (s.pushWord (s.ea adr x)) (.continue_ none)

/-- POP r (R221). -/
def execPop (r : RegField) (s : State) : StepOutcome :=
  withReg r s fun r => complete .r (s.popReg r) (.continue_ none)

/-- R222, R223: the call level takes a new value. -/
def State.setLevel (s : State) (level : Nat) : State := { s with level := level }

/-- CALL adr,x (R222): pushes the address of the CALL itself. -/
def execCall (adr : Word) (x : RegField) (s : State) : StepOutcome :=
  withReg x s fun x =>
    complete .ax ((s.pushWord s.pr).setLevel (s.level + 1)) (.jump (s.ea adr x) none)

/-- RET (R223): ends the program at call level 0, else returns to the popped word plus 2. -/
def execRet (s : State) : StepOutcome :=
  match s.level with
  | 0 => complete .n s .halt
  | level + 1 => complete .n (s.incSp.setLevel level) (.jump (s.readMem s.sp + 2) none)

/-- RPUSH (R224). -/
def execRpush (s : State) : StepOutcome :=
  complete .n (savedRegs.foldl State.pushReg s) (.continue_ none)

/-- RPOP (R225). -/
def execRpop (s : State) : StepOutcome :=
  complete .n (savedRegs.reverse.foldl State.popReg s) (.continue_ none)

end Sys2Proof.Machine
end

