-- ==== Sys2Proof/Machine/System.lean ====
section
/-! DEFINITION. Supervisor call and console (46_system_io.md). -/

namespace Sys2Proof.Machine

/-- SVC adr,x (R250): the jump signal back to the current PR; the operands are not used. -/
def execSvc (_adr : Word) (x : RegField) (s : State) : StepOutcome :=
  withReg x s fun _ => complete .ax s (.jump s.pr none)

/-- R253: the next answer of the line provider: the one the host has ready, or, where it has none ready, a free line (log
entry 7). -/
def State.nextAnswer (s : State) : ConsoleAnswer :=
  match s.consoleIn with
  | answer :: _ => answer
  | [] => .line (Config.freeLine s.consoleReads)

/-- R253: the provider has answered once. -/
def State.consumeAnswer (s : State) : State :=
  { s with consoleIn := s.consoleIn.tail, consoleReads := s.consoleReads + 1 }

/-- R251: one character code a word, at successive addresses modulo 65536. -/
def State.storeCodes (s : State) (buf : Word) : List Nat → State
  | [] => s
  | code :: rest => (s.writeMem buf (u16 code)).storeCodes (buf + 1) rest

/-- R251: the characters, at most `maxChars` of them, and then their count. -/
def State.storeLine (s : State) (maxChars : Nat) (buf lenadr : Word) (codes : List Nat) : State :=
  (s.storeCodes buf (codes.take maxChars)).writeMem lenadr (u16 (min codes.length maxChars))

/-- IN buf,lenadr (R251). -/
def execInput (buf lenadr : Word) (s : State) : StepOutcome :=
  match s.nextAnswer with
  | .line codes => complete .s (s.consumeAnswer.storeLine inMaxChars buf lenadr codes) (.continue_ none)
  | .never => .fault .consoleNeverAnswers

/-- R252: `k` words at successive addresses modulo 65536. -/
def State.readWords (s : State) (buf : Word) : Nat → List Word
  | 0 => []
  | k + 1 => s.readMem buf :: s.readWords (buf + 1) k

/-- R252, R253: the sink receives a line. -/
def State.sendLine (s : State) (line : List Word) : State := { s with consoleOut := s.consoleOut ++ [line] }

/-- OUT buf,lenadr (R252). -/
def execOutput (buf lenadr : Word) (s : State) : StepOutcome :=
  complete .s (s.sendLine (s.readWords buf (s.readMem lenadr).toNat)) (.continue_ none)

end Sys2Proof.Machine
end

