-- ==== Sys2Proof/Machine/Dispatch.lean ====
section
/-! DEFINITION. One arm per instruction: the handler the dispatch table gives it (R80). -/

namespace Sys2Proof.Machine

def exec (i : Instr) (s : State) : Host.Outcome State Fault Refusal :=
  match i with
  | .ldAdr r adr x => Sys2Proof.Machine.execLdAdr r adr x s
  | .st r adr x => Sys2Proof.Machine.execSt r adr x s
  | .lad r adr x => Sys2Proof.Machine.execLad r adr x s
  | .ldReg r1 r2 => Sys2Proof.Machine.execLdReg r1 r2 s
  | .addaAdr r adr x => Sys2Proof.Machine.execAddaAdr r adr x s
  | .subaAdr r adr x => Sys2Proof.Machine.execSubaAdr r adr x s
  | .addlAdr r adr x => Sys2Proof.Machine.execAddlAdr r adr x s
  | .sublAdr r adr x => Sys2Proof.Machine.execSublAdr r adr x s
  | .addaReg r1 r2 => Sys2Proof.Machine.execAddaReg r1 r2 s
  | .subaReg r1 r2 => Sys2Proof.Machine.execSubaReg r1 r2 s
  | .addlReg r1 r2 => Sys2Proof.Machine.execAddlReg r1 r2 s
  | .sublReg r1 r2 => Sys2Proof.Machine.execSublReg r1 r2 s
  | .andAdr r adr x => Sys2Proof.Machine.execAndAdr r adr x s
  | .orAdr r adr x => Sys2Proof.Machine.execOrAdr r adr x s
  | .xorAdr r adr x => Sys2Proof.Machine.execXorAdr r adr x s
  | .andReg r1 r2 => Sys2Proof.Machine.execAndReg r1 r2 s
  | .orReg r1 r2 => Sys2Proof.Machine.execOrReg r1 r2 s
  | .xorReg r1 r2 => Sys2Proof.Machine.execXorReg r1 r2 s
  | .cpaAdr r adr x => Sys2Proof.Machine.execCpaAdr r adr x s
  | .cplAdr r adr x => Sys2Proof.Machine.execCplAdr r adr x s
  | .cpaReg r1 r2 => Sys2Proof.Machine.execCpaReg r1 r2 s
  | .cplReg r1 r2 => Sys2Proof.Machine.execCplReg r1 r2 s
  | .sla r adr x => Sys2Proof.Machine.execSla r adr x s
  | .sra r adr x => Sys2Proof.Machine.execSra r adr x s
  | .sll r adr x => Sys2Proof.Machine.execSll r adr x s
  | .srl r adr x => Sys2Proof.Machine.execSrl r adr x s
  | .jmi adr x => Sys2Proof.Machine.execJmi adr x s
  | .jnz adr x => Sys2Proof.Machine.execJnz adr x s
  | .jze adr x => Sys2Proof.Machine.execJze adr x s
  | .jump adr x => Sys2Proof.Machine.execJump adr x s
  | .jpl adr x => Sys2Proof.Machine.execJpl adr x s
  | .jov adr x => Sys2Proof.Machine.execJov adr x s
  | .push adr x => Sys2Proof.Machine.execPush adr x s
  | .pop r => Sys2Proof.Machine.execPop r s
  | .call adr x => Sys2Proof.Machine.execCall adr x s
  | .ret => Sys2Proof.Machine.execRet s
  | .input buf lenadr => Sys2Proof.Machine.execInput buf lenadr s
  | .output buf lenadr => Sys2Proof.Machine.execOutput buf lenadr s
  | .rpush => Sys2Proof.Machine.execRpush s
  | .rpop => Sys2Proof.Machine.execRpop s
  | .svc adr x => Sys2Proof.Machine.execSvc adr x s

end Sys2Proof.Machine
end

