-- ==== Sys2Proof/Machine/Fetch.lean ====
section
/-! DEFINITION. The instruction fetch, and where a test's instruction is put so that the next step fetches it. -/

namespace Sys2Proof.Machine

/-- R7: `k` words from an address on, modulo 65536. -/
def State.wordsFrom (s : State) (a : Word) : Nat → List Word
  | 0 => []
  | k + 1 => s.readMem a :: s.wordsFrom (a + 1) k

/-- R87: the words of the instruction at PR, as many as its opcode byte says (R77). -/
def State.fetchWords (s : State) : List Word :=
  s.wordsFrom s.pr (opcodeLength s.params (opcodeByte (s.readMem s.pr)))

/-- R87: the instruction at PR. -/
def State.fetch (s : State) : Except DecodeError Instr :=
  match decode s.params s.fetchWords with
  | .ok (i, _) => .ok i
  | .error e => .error e

/-- R271: what the step does with a word that is no instruction. A fetched list is never too short (log entry 12). -/
def rejectFetch (s : State) : StepOutcome := raise (.invalidOperation s.pr) s

/-- Words put into memory from an address on, modulo 65536. -/
def State.placeWords (s : State) (a : Word) : List Word → State
  | [] => s
  | w :: rest => (s.writeMem a w).placeWords (a + 1) rest

/-- A halted machine fetches nothing (R41): it is made ready; any other status stays. -/
def Status.fetching : Status → Status
  | .ready => .ready
  | .running => .running
  | .halted _ => .ready

end Sys2Proof.Machine
end

