-- ==== Sys2Proof/Machine/Step.lean ====
section
/-! DEFINITION. One step (R87). -/

namespace Sys2Proof.Machine

/-- R87: fetch, decode and run one instruction; the register check is part of each meaning (R79). -/
def runInstruction (s : State) : StepOutcome :=
  match s.fetch with
  | .ok i => exec i s
  | .error _ => rejectFetch s

/-- R41, R87: a halted machine stays as it is. -/
def step (s : State) : Host.Outcome State Fault Refusal :=
  match s.status with
  | .halted _ => .next s
  | .ready => runInstruction s
  | .running => runInstruction s

/-- `s` with one instruction stored at PR, so that the next step runs it: its three longest words, and a status that lets a step
fetch (log entry 12). -/
def State.withFetchWord (s : State) (nbits w : Nat) : State :=
  { s.placeWords s.pr (tableWords nbits w) with status := s.status.fetching }

end Sys2Proof.Machine
end

