-- ==== Sys2Proof/Machine/HostInterface.lean ====
section
/-! DEFINITION. What the host can do to the machine beside a step: load, run, and reading the status (R287). -/

namespace Sys2Proof.Machine

/-- R274: why a load is refused. -/
inductive LoadError
  /-- shorter than the 8-word header -/
  | shortHeader
  /-- more than 65536 words after the header -/
  | longPayload
  deriving DecidableEq, Repr

/-- R4: `HEADER_WORDS`. -/
def headerWords : Nat := 8

/-- R4: `PR_HEADER_INDEX`. -/
def prHeaderIndex : Nat := 2

/-- R274: what is wrong with a stream, if anything. -/
def loadError (stream : List Word) : Option LoadError :=
  if stream.length < headerWords then some .shortHeader
  else if memWords < stream.length - headerWords then some .longPayload
  else none

/-- R300, R301: the state after a successful load. The parameters stay, which are no state of the block (R4), and what belongs to
the host stays: the breakpoint set (R301) and the console. -/
def State.loaded (s : State) (stream : List Word) : State where
  params := s.params
  gr := Regs.reset
  pr := stream.getD prHeaderIndex 0
  of := false
  sf := false
  zf := true
  level := 0
  steps := 0
  status := .ready
  mem := Memory.ofWords 0 (stream.drop headerWords)
  breakpoints := s.breakpoints
  consoleIn := s.consoleIn
  consoleReads := s.consoleReads
  consoleOut := s.consoleOut

/-- R300: `load(stream)`, the state afterwards and the LoadError it reports; a refused load leaves the state as it was (R274). -/
def load (stream : List Word) (s : State) : State × Option LoadError :=
  match loadError stream with
  | some e => (s, some e)
  | none => (s.loaded stream, none)

/-- R99: the word sequence the assembler hands over: the header, with the magic tag and the initial PR, then the payload. -/
def programStream (entry : Word) (payload : List Word) : List Word :=
  [Config.magic.1, Config.magic.2, entry, 0, 0, 0, 0, 0] ++ payload

/-- R54: one word from two bytes of a serialised stream. -/
def wordOfBytes (order : ByteOrder) (first second : Byte) : Word :=
  match order with
  | .highByteFirst => first ++ second
  | .lowByteFirst => second ++ first

/-- R54: the load stream from a byte serialisation of it; none when a byte is left over. -/
def streamOfBytes (order : ByteOrder) : List Byte → Option (List Word)
  | [] => some []
  | [_] => none
  | first :: second :: rest => (streamOfBytes order rest).map (wordOfBytes order first second :: ·)

/-- R54: the load of a byte serialisation, whose order is `STREAM_BYTE_ORDER`; none when the bytes are no word sequence. -/
def loadBytes (bytes : List Byte) (s : State) : Option (State × Option LoadError) :=
  (streamOfBytes Config.streamByteOrder bytes).map fun stream => load stream s

/-- R40: whether the status is halted. -/
def Status.isHalted : Status → Bool
  | .ready => false
  | .running => false
  | .halted _ => true

/-- R285: where `run` stops after a step. -/
def State.atStop (bp : List Nat) (s : State) : Bool := s.status.isHalted || bp.contains s.pr.toNat

/-- What `run` ends in. -/
inductive RunResult
  /-- it returned, at a halt or a breakpoint (R285) -/
  | stopped (s : State)
  /-- it has not returned within the steps it was given -/
  | unfinished (s : State)
  /-- it is stuck in a step (R253) -/
  | stuck (r : Fault)
  /-- a step was refused; no step of this model is -/
  | refused (r : Refusal)
  deriving DecidableEq, Repr

/-- R285: `run(breakpoints)` for at most `fuel` steps: step, then stop at a halt or a breakpoint. At least one step is made, so a
run from a breakpoint moves past it. -/
def run (bp : List Nat) : Nat → State → RunResult
  | 0, s => .unfinished s
  | fuel + 1, s =>
    match step s with
    | .next t => if t.atStop bp then .stopped t else run bp fuel t
    | .fault r => .stuck r
    | .refused r => .refused r

/-- R284, R285: a run with the breakpoint set the host keeps. -/
def State.runToStop (s : State) (fuel : Nat) : RunResult := run s.breakpoints fuel s

/-- An address put into a rising list without repeats. -/
def insertAddress (a : Nat) : List Nat → List Nat
  | [] => [a]
  | b :: rest => if a < b then a :: b :: rest else if a = b then b :: rest else b :: insertAddress a rest

/-- R284: the host adds a breakpoint. -/
def State.addBreakpoint (s : State) (a : Word) : State := { s with breakpoints := insertAddress a.toNat s.breakpoints }

/-- R284: the host takes a breakpoint away. -/
def State.removeBreakpoint (s : State) (a : Word) : State := { s with breakpoints := s.breakpoints.filter (· ≠ a.toNat) }

/-- R288: the status as a number. -/
def Status.code : Status → Nat
  | .ready => 0
  | .running => 0
  | .halted .machineExit => 1
  | .halted (.invalidOperation _) => 2
  | .halted (.invalidRegister _) => 3

/-- R288: the recorded address of codes 2 and 3. -/
def Status.faultAddress : Status → Option Word
  | .ready => none
  | .running => none
  | .halted .machineExit => none
  | .halted (.invalidOperation a) => some a
  | .halted (.invalidRegister a) => some a

end Sys2Proof.Machine
end

