-- ==== Sys2Proof/Safety.lean ====
section
/-! DEFINITION. The terms claims are stated in: what a step leaves unchanged, how it ends, the invariant of the machine, and the
form of an instruction rule of the spec. -/

namespace Sys2Proof.Machine

/-- Every register but the listed ones is unchanged. -/
def SameRegs (except : List Reg) (s t : State) : Prop := ∀ q, q ∉ except → t.reg q = s.reg q

/-- Every flag is unchanged. -/
def SameFlags (s t : State) : Prop := t.of = s.of ∧ t.sf = s.sf ∧ t.zf = s.zf

/-- Every word of memory but those at the listed addresses reads as before. -/
def SameMem (except : List Word) (s t : State) : Prop := ∀ a : Word, a ∉ except → t.readMem a = s.readMem a

/-- The console's two ends are unchanged. -/
def SameConsole (s t : State) : Prop :=
  t.consoleIn = s.consoleIn ∧ t.consoleReads = s.consoleReads ∧ t.consoleOut = s.consoleOut

/-- R87: the step completed, with PR at `target`. -/
def Arrived (target : Word) (s t : State) : Prop :=
  t.pr = target ∧ t.steps = s.steps + 1 ∧ t.status = .running

/-- R87, R90: the step fell through to the word `n` further on. -/
def FellThrough (n : Nat) (s t : State) : Prop := Arrived (s.pr + BitVec.ofNat 16 n) s t

/-- The parameters, the breakpoint set and the console are unchanged. -/
def SameHost (s t : State) : Prop := t.params = s.params ∧ t.breakpoints = s.breakpoints ∧ SameConsole s t

/-- The call level, the parameters, the breakpoint set and the console are unchanged. -/
def SameRest (s t : State) : Prop := t.level = s.level ∧ SameHost s t

/-- An instruction whose one result is the word `w` in `dst`, with its flags, and which is `n` words long. -/
def WritesReg (n : Nat) (dst : Reg) (w : Word) (of sf zf : Bool) (s t : State) : Prop :=
  t.reg dst = w ∧ t.of = of ∧ t.sf = sf ∧ t.zf = zf ∧
  SameRegs [dst] s t ∧ SameMem [] s t ∧ SameRest s t ∧ FellThrough n s t

/-- An instruction whose one result is its flags. -/
def WritesFlags (n : Nat) (of sf zf : Bool) (s t : State) : Prop :=
  t.of = of ∧ t.sf = sf ∧ t.zf = zf ∧ SameRegs [] s t ∧ SameMem [] s t ∧ SameRest s t ∧ FellThrough n s t

/-- R271 to R273: the state in which the machine has stopped: only the status differs. -/
def State.haltedBy (s : State) (reason : HaltReason) : State := { s with status := .halted reason }

/-- R23: the field names the register. -/
def Names (f : RegField) (q : Reg) : Prop := f.toNat = q.number

/-- R23: the field names no register. -/
def NamesNone (f : RegField) : Prop := 9 ≤ f.toNat

/-- With these parameters the encoder gives these words and the decoder reads the instruction back from them. -/
def EncodedAs (p : Params) (i : Instr) (ws : List Word) : Prop := encode p i = ws ∧ decode p ws = .ok (i, [])

/-- The rule of an instruction of shape RAX: its words (R72), its effect on the registers its fields name, and InvalidRegister
(R79) when one of them names none. -/
def RaxRule (op : Byte) (mk : RegField → Word → RegField → Instr) (effect : Reg → Word → Reg → State → State → Prop) : Prop :=
  ∀ (r : RegField) (adr : Word) (x : RegField) (s : State),
    EncodedAs s.params (mk r adr x) [op ++ r ++ x, adr] ∧
    (∀ p q, Names r p → Names x q → ∃ t, exec (mk r adr x) s = .next t ∧ effect p adr q s t) ∧
    (NamesNone r ∨ NamesNone x → exec (mk r adr x) s = .next (s.haltedBy (.invalidRegister s.pr)))

/-- The rule of an instruction of shape RR. -/
def RrRule (op : Byte) (mk : RegField → RegField → Instr) (effect : Reg → Reg → State → State → Prop) : Prop :=
  ∀ (r1 r2 : RegField) (s : State),
    EncodedAs s.params (mk r1 r2) [op ++ r1 ++ r2] ∧
    (∀ p q, Names r1 p → Names r2 q → ∃ t, exec (mk r1 r2) s = .next t ∧ effect p q s t) ∧
    (NamesNone r1 ∨ NamesNone r2 → exec (mk r1 r2) s = .next (s.haltedBy (.invalidRegister s.pr)))

/-- The rule of an instruction of shape AX; the ignored bits are written 0. -/
def AxRule (op : Byte) (mk : Word → RegField → Instr) (effect : Word → Reg → State → State → Prop) : Prop :=
  ∀ (adr : Word) (x : RegField) (s : State),
    EncodedAs s.params (mk adr x) [op ++ (0 : RegField) ++ x, adr] ∧
    (∀ q, Names x q → ∃ t, exec (mk adr x) s = .next t ∧ effect adr q s t) ∧
    (NamesNone x → exec (mk adr x) s = .next (s.haltedBy (.invalidRegister s.pr)))

/-- R285: a state at which `run` returns. -/
def StopsRun (bp : List Nat) (s : State) : Prop := s.status.isHalted = true ∨ s.pr.toNat ∈ bp

/-- The state after `k` steps, none where one of them has no next state. -/
def afterSteps : Nat → State → Option State
  | 0, s => some s
  | k + 1, s =>
    match step s with
    | .next t => afterSteps k t
    | .fault _ => none
    | .refused _ => none

/-- R304: a run that ends well. -/
def State.EndedWell (s : State) : Prop := s.status = .halted .machineExit

/-- The breakpoint addresses are addresses, rising and without repeats. -/
def BreakpointsOk (bp : List Nat) : Prop := bp.Pairwise (· < ·) ∧ ∀ a ∈ bp, a < memWords

/-- What the status says of the rest of the state: Ready has made no step, Running has made one, MachineExit stands at a RET at
call level 0 (R273), and a fault stands at the instruction that raised it (R271, R272, R277). -/
def StatusAgrees (s : State) : Prop :=
  match s.status with
  | .ready => s.steps = 0
  | .running => 0 < s.steps
  | .halted .machineExit => s.level = 0 ∧ s.fetch = .ok .ret
  | .halted (.invalidOperation a) => a = s.pr ∧ opcodeRow s.params (opcodeByte (s.readMem s.pr)) = none
  | .halted (.invalidRegister a) => a = s.pr ∧ ∃ i, s.fetch = .ok i ∧ i.wf = false

/-- The invariant of the machine: the memory is in its canonical form, the call level counts no more calls than there were steps,
the status agrees with the rest, the breakpoint set is one, and the parameters give each opcode byte one row at most and 0x00 none. -/
structure Inv (s : State) : Prop where
  mem : s.mem.wf = true
  level : s.level ≤ s.steps
  status : StatusAgrees s
  breakpoints : BreakpointsOk s.breakpoints
  params : s.params.ok = true

/-- An outcome with its next state changed. -/
def mapNext (f : State → State) : StepOutcome → StepOutcome
  | .next t => .next (f t)
  | .fault r => .fault r
  | .refused r => .refused r

/-- R27: the instructions that write all three flags. -/
def WritesAllFlags : Instr → Bool
  | .ldAdr _ _ _ | .ldReg _ _ => true
  | .addaAdr _ _ _ | .addaReg _ _ | .subaAdr _ _ _ | .subaReg _ _ => true
  | .addlAdr _ _ _ | .addlReg _ _ | .sublAdr _ _ _ | .sublReg _ _ => true
  | .andAdr _ _ _ | .andReg _ _ | .orAdr _ _ _ | .orReg _ _ | .xorAdr _ _ _ | .xorReg _ _ => true
  | .cpaAdr _ _ _ | .cpaReg _ _ | .cplAdr _ _ _ | .cplReg _ _ => true
  | .sla _ _ _ | .sra _ _ _ | .sll _ _ _ | .srl _ _ _ => true
  | .lad _ _ _ | .st _ _ _ => false
  | .jmi _ _ | .jnz _ _ | .jze _ _ | .jump _ _ | .jpl _ _ | .jov _ _ => false
  | .push _ _ | .pop _ | .call _ _ | .ret | .rpush | .rpop | .svc _ _ | .input _ _ | .output _ _ => false

/-- R102: the instructions whose zero flag depends on `ZF_BASIS`. -/
def AddsOrSubtracts : Instr → Bool
  | .addaAdr _ _ _ | .addaReg _ _ | .subaAdr _ _ _ | .subaReg _ _ => true
  | .addlAdr _ _ _ | .addlReg _ _ | .sublAdr _ _ _ | .sublReg _ _ => true
  | .ldAdr _ _ _ | .ldReg _ _ | .st _ _ _ | .lad _ _ _ => false
  | .andAdr _ _ _ | .andReg _ _ | .orAdr _ _ _ | .orReg _ _ | .xorAdr _ _ _ | .xorReg _ _ => false
  | .cpaAdr _ _ _ | .cpaReg _ _ | .cplAdr _ _ _ | .cplReg _ _ => false
  | .sla _ _ _ | .sra _ _ _ | .sll _ _ _ | .srl _ _ _ => false
  | .jmi _ _ | .jnz _ _ | .jze _ _ | .jump _ _ | .jpl _ _ | .jov _ _ => false
  | .push _ _ | .pop _ | .call _ _ | .ret | .rpush | .rpop | .svc _ _ | .input _ _ | .output _ _ => false

/-- The register fields of word 1 that a shape uses, as R79 lists them, holding a value that names no register. -/
def UsedFieldOutOfRange (shape : Shape) (w1 : Word) : Prop :=
  match shape with
  | .n => False
  | .r => NamesNone (highNibble w1)
  | .rr => NamesNone (highNibble w1) ∨ NamesNone (lowNibble w1)
  | .ax => NamesNone (lowNibble w1)
  | .rax => NamesNone (highNibble w1) ∨ NamesNone (lowNibble w1)
  | .s => False

/-- The bits of word 1 that a shape does not ignore (R72). -/
def usedBits : Shape → Word
  | .n => 0xFF00
  | .r => 0xFFF0
  | .rr => 0xFFFF
  | .ax => 0xFF0F
  | .rax => 0xFFFF
  | .s => 0xFF00

/-- The opcode bytes of R80's table, 0x00 never being one (R83). -/
def tableOpcodes (p : Params) : List Nat :=
  [0x10, 0x11, 0x12, 0x14, 0x20, 0x21, 0x22, 0x23, 0x24, 0x25, 0x26, 0x27] ++
  [0x30, 0x31, 0x32, 0x34, 0x35, 0x36, 0x40, 0x41, 0x44, 0x45, 0x50, 0x51, 0x52, 0x53] ++
  [0x61, 0x62, 0x63, 0x64, 0x65, 0x66, 0x70, 0x71, 0x80, 0x81, 0xF0] ++
  [p.opcIn.toNat, p.opcOut.toNat, p.opcRpush.toNat, p.opcRpop.toNat].filter (· ≠ 0)

end Sys2Proof.Machine
end

