-- ==== Sys2Proof/Certificates/Slice0/Obligations.lean ====
section
/-! DEFINITION. The statements about the machine, from the numbered rules of the spec. Three clauses of the instruction statements
rest on choices the spec marks as its own: the opcode numbers are from general knowledge (D1, log entry 5), InvalidRegister is D4
(log entry 13), and the instructions other than LAD that leave the flags do so by D10 (log entry 13). -/

open Sys2Proof Sys2Proof.Machine

/-! ## Encoding -/

/-- R72, R80: for all parameters that give each opcode byte one row at most and 0x00 none, every instruction, with every operand at every value
its encoding holds (register fields 9..15 too), is read back from the words the encoder gives it, whatever words follow. -/
def Obligations.DecodeOfEncodeIsTheInstruction : Prop :=
  ∀ p : Params, p.ok = true → ∀ (i : Instr) (rest : List Word), decode p (encode p i ++ rest) = .ok (i, rest)

/-- R72, R73, R77: an instruction that is read from words takes as many words as its shape is long, and the encoder gives those
words back, but for the bits of word 1 that the shape ignores, which it writes as 0; for all parameters. -/
def Obligations.DecodedWordsAreTheEncodingOfTheInstruction : Prop :=
  ∀ (p : Params) (ws : List Word) (i : Instr) (rest : List Word), decode p ws = .ok (i, rest) →
    ∃ (w1 : Word) (operands : List Word), ws = w1 :: operands ++ rest ∧ operands.length + 1 = i.length ∧
      encode p i = (w1 &&& usedBits i.shape) :: operands

/-- R73: whatever the parameters, any three words are an instruction or an unknown opcode, and two first words that differ only in
ignored bits are the same instruction. -/
def Obligations.DecodingToleratesAnyBitPattern : Prop :=
  ∀ p : Params,
    (∀ w1 w2 w3 : Word, (∃ i rest, decode p [w1, w2, w3] = .ok (i, rest)) ∨
      decode p [w1, w2, w3] = .error (.unknownOpcode (opcodeByte w1))) ∧
    (∀ (w w' : Word) (operands : List Word) (i : Instr) (rest : List Word), decode p (w :: operands) = .ok (i, rest) →
      w &&& usedBits i.shape = w' &&& usedBits i.shape → decode p (w' :: operands) = .ok (i, rest))

/-- Words written out from R72 and R80 decode to the instructions they stand for, with the default parameters and with others. -/
def Obligations.WordsOfTheTableDecode : Prop :=
  decode defaultParams [0b0010010000010010] = .ok (.addaReg 1 2, []) ∧
  decode defaultParams [0b0001000000100101, 0x0100] = .ok (.ldAdr 2 0x0100 5, []) ∧
  decode defaultParams [0b0111000100101111] = .ok (.pop 2, []) ∧
  decode defaultParams [0b0110010010010000, 0x0022] = .ok (.jump 0x0022 0, []) ∧
  decode defaultParams [0b1001000000000000, 0x0100, 0x0200] = .ok (.input 0x0100 0x0200, []) ∧
  decode defaultParams [0b1000000111111111] = .ok (.ret, []) ∧
  decode defaultParams [0b0101000100010011, 0x0001] = .ok (.sra 1 1 3, []) ∧
  decode { defaultParams with opcIn := 0x91, opcOut := 0x90 } [0b1001000000000000, 0x0100, 0x0200] = .ok (.output 0x0100 0x0200, []) ∧
  decode { defaultParams with opcRpush := 0x13 } [0b0001001111111111] = .ok (.rpush, []) ∧
  decode { defaultParams with opcRpush := 0x13 } [0b1010000000000000] = .error (.unknownOpcode 0xA0)

/-! ## The step -/

/-- R87: when the words at PR are an instruction under the state's parameters, the step of a machine that is not halted runs it; the end of the step (PR, the
step counter, the status) is part of `exec`. -/
def Obligations.StepRunsTheInstructionAtPr : Prop :=
  ∀ (s : State) (i : Instr) (rest : List Word), s.status.isHalted = false →
    decode s.params [s.readMem s.pr, s.readMem (s.pr + 1), s.readMem (s.pr + 2)] = .ok (i, rest) → step s = exec i s

/-- R82, R271: the step of a word whose high byte is not one of R80's, four of which are parameters, halts with InvalidOperation at PR and changes nothing
but the status; no other word does. -/
def Obligations.UnknownOpcodeRaisesInvalidOperation : Prop :=
  ∀ s : State, s.status.isHalted = false →
    ((opcodeByte (s.readMem s.pr)).toNat ∉ tableOpcodes s.params → step s = .next (s.haltedBy (.invalidOperation s.pr))) ∧
    ((opcodeByte (s.readMem s.pr)).toNat ∈ tableOpcodes s.params →
      ∀ t a, step s = .next t → t.status ≠ .halted (.invalidOperation a))

/-- R79, R272: when a register field that the shape of the instruction at PR uses holds 9..15, the step halts with InvalidRegister
at PR and changes nothing but the status; otherwise, an ignored field being out of range included, it does not. -/
def Obligations.FieldOutOfRangeRaisesInvalidRegister : Prop :=
  ∀ (s : State) (row : OpRow), s.status.isHalted = false → opcodeRow s.params (opcodeByte (s.readMem s.pr)) = some row →
    (UsedFieldOutOfRange row.shape (s.readMem s.pr) → step s = .next (s.haltedBy (.invalidRegister s.pr))) ∧
    (¬ UsedFieldOutOfRange row.shape (s.readMem s.pr) →
      ∀ t a, step s = .next t → t.status ≠ .halted (.invalidRegister a))

/-- R41, R270: where a step goes. A halted machine stays as it is; from Ready or Running the step completes and the machine runs,
or it halts with MachineExit, InvalidOperation or InvalidRegister at PR, nothing else having changed. A load that is not refused
makes any machine Ready. -/
def Obligations.StatusFollowsTheStateMachine : Prop :=
  (∀ s t : State, step s = .next t →
    (s.status.isHalted = true → t = s) ∧
    (s.status.isHalted = false → t.status = .running ∨ t = s.haltedBy .machineExit ∨
      t = s.haltedBy (.invalidOperation s.pr) ∨ t = s.haltedBy (.invalidRegister s.pr))) ∧
  (∀ (s : State) (stream : List Word), (load stream s).2 = none → (load stream s).1.status = .ready)

/-- R253, R270: every step answers a next state, but an IN whose provider never answers, which is stuck. -/
def Obligations.OnlyAnUnansweredInIsStuck : Prop :=
  ∀ s : State, (∃ t, step s = .next t) ∨
    (∃ buf lenadr rest, s.fetch = .ok (.input buf lenadr) ∧ s.consoleIn = .never :: rest ∧
      step s = .fault .consoleNeverAnswers)

/-- R31: the step counter is 0 after load, counts the steps that end in Continue or Jump and no others, and no step depends on
it. -/
def Obligations.StepCounterCountsCompletedSteps : Prop :=
  (∀ (s : State) (stream : List Word), (load stream s).2 = none → (load stream s).1.steps = 0) ∧
  (∀ s t : State, step s = .next t → t.steps = if t.status = .running then s.steps + 1 else s.steps) ∧
  (∀ (s : State) (n : Nat) (t : State), step s = .next t →
    step { s with steps := n } = .next { t with steps := if t.status = .running then n + 1 else n })

/-- R27: the listed instructions write all three flags, so what the flags were does not matter to them, and every other
instruction leaves all three as they were. -/
def Obligations.FlagsAreWrittenByTheListedInstructionsOnly : Prop :=
  ∀ (i : Instr) (s t : State), i.wf = true → exec i s = .next t →
    (WritesAllFlags i = true → ∀ o n z : Bool, exec i { s with of := o, sf := n, zf := z } = .next t) ∧
    (WritesAllFlags i = false → SameFlags s t)

/-- R30: the call level is 0 after load, CALL adds one, RET at a level above 0 takes one away, and every other instruction leaves
it and does not depend on it. -/
def Obligations.CallLevelIsWrittenByCallAndRetOnly : Prop :=
  (∀ (s : State) (stream : List Word), (load stream s).2 = none → (load stream s).1.level = 0) ∧
  (∀ (i : Instr) (s t : State), i.wf = true → exec i s = .next t →
    (∀ adr x, i = .call adr x → t.level = s.level + 1) ∧
    (i = .ret → t.level = s.level - 1) ∧
    ((∀ adr x, i ≠ .call adr x) → i ≠ .ret →
      t.level = s.level ∧ ∀ n, exec i { s with level := n } = .next { t with level := n }))

/-- R4: the parameters are fixed for a machine: no step and no load changes them, with or without an error. -/
def Obligations.NoStepOrLoadChangesTheParameters : Prop :=
  (∀ s t : State, step s = .next t → t.params = s.params) ∧
  (∀ (s : State) (stream : List Word), (load stream s).1.params = s.params)

/-- R80, R102: what an instruction does depends on `ZF_BASIS` alone of the parameters, and on that only in ADDA, SUBA, ADDL and
SUBL; the four `OPC_*` say which words an instruction has and nothing else. -/
def Obligations.OnlyAddAndSubtractDependOnTheParameters : Prop :=
  ∀ (i : Instr) (s : State) (p : Params), (p.zfBasis = s.params.zfBasis ∨ AddsOrSubtracts i = false) →
    exec i { s with params := p } = mapNext (fun t => { t with params := p }) (exec i s)

/-- R284: the breakpoint set has no effect on a step and no step changes it. -/
def Obligations.BreakpointsHaveNoEffectOnAStep : Prop :=
  ∀ (s : State) (bp : List Nat),
    step { s with breakpoints := bp } = mapNext (fun t => { t with breakpoints := bp }) (step s) ∧
    ∀ t, step s = .next t → t.breakpoints = s.breakpoints

/-- R8, R282: IN alone depends on what the console has to say, and OUT alone sends a line. -/
def Obligations.OnlyInReadsTheConsoleAndOnlyOutWritesIt : Prop :=
  ∀ (i : Instr) (s : State),
    ((∀ buf lenadr, i ≠ .input buf lenadr) → ∀ (answers : List ConsoleAnswer) (n : Nat),
      exec i { s with consoleIn := answers, consoleReads := n } =
        mapNext (fun t => { t with consoleIn := answers, consoleReads := n }) (exec i s)) ∧
    ((∀ buf lenadr, i ≠ .output buf lenadr) → ∀ t, exec i s = .next t → t.consoleOut = s.consoleOut)

/-- R56, R59: only ST, PUSH, CALL, RPUSH and IN write memory. -/
def Obligations.OtherInstructionsLeaveMemory : Prop :=
  ∀ (i : Instr) (s t : State), (∀ r adr x, i ≠ .st r adr x) → (∀ adr x, i ≠ .push adr x) → (∀ adr x, i ≠ .call adr x) →
    i ≠ .rpush → (∀ buf lenadr, i ≠ .input buf lenadr) → exec i s = .next t → SameMem [] s t

/-! ## Load, reset and run -/

/-- R29, R300, R301: the state after a load that is not refused, in whatever state it is asked for. -/
def Obligations.LoadResetsEverything : Prop :=
  ∀ (s : State) (stream : List Word), 8 ≤ stream.length → stream.length ≤ 8 + 65536 →
    ∃ t, load stream s = (t, none) ∧
      (∀ a : Word, ∀ w : Word, stream[8 + a.toNat]? = some w → t.readMem a = w) ∧
      (∀ a : Word, stream.length ≤ 8 + a.toNat → t.readMem a = 0) ∧
      (∀ q, q ≠ Reg.gr8 → t.reg q = 0) ∧ t.sp = spInit ∧ some t.pr = stream[2]? ∧
      t.zf = true ∧ t.sf = false ∧ t.of = false ∧ t.fr = 0b001 ∧
      t.level = 0 ∧ t.steps = 0 ∧ t.status = .ready ∧ t.breakpoints = s.breakpoints ∧ t.params = s.params

/-- R29: the flags after a load that is not refused, in whatever state it is asked for. -/
def Obligations.FlagsAfterLoad : Prop :=
  ∀ (s : State) (stream : List Word), (load stream s).2 = none →
    (load stream s).1.zf = true ∧ (load stream s).1.sf = false ∧ (load stream s).1.of = false ∧
    (load stream s).1.fr = 0b001

/-- R274: a stream without its whole header, or whose payload is over 65536 words, is refused and the state stays as it was. -/
def Obligations.LoadOfABadStreamIsRefused : Prop :=
  ∀ (s : State) (stream : List Word), (stream.length < 8 ∨ 65536 < stream.length - 8) →
    ∃ e, load stream s = (s, some e)

/-- R301: State.reset is the state after a load of a stream with no payload, whose header word 2 is the model's choice (log entry
2), from a machine with the default parameters (R4), no breakpoints and nothing on its console (log entries 7, 8, 11). -/
def Obligations.ResetIsTheStateAfterAnEmptyLoad : Prop :=
  ∀ (s : State), s.params = defaultParams → s.breakpoints = [] → s.consoleIn = [] → s.consoleReads = 0 → s.consoleOut = [] →
    load (programStream resetEntry []) s = (State.reset, none)

/-- R285: `run` returns after the first step that leaves the machine halted or at a breakpoint, one step at least having been
made, and not otherwise. -/
def Obligations.RunStopsAtTheFirstHaltOrBreakpoint : Prop :=
  ∀ (bp : List Nat) (fuel : Nat) (s t : State), run bp fuel s = .stopped t ↔
    ∃ k, 1 ≤ k ∧ k ≤ fuel ∧ afterSteps k s = some t ∧ StopsRun bp t ∧
      ∀ j, 1 ≤ j → j < k → ∀ u, afterSteps j s = some u → ¬ StopsRun bp u

/-- The invariant holds of the state after reset. -/
def Obligations.InvariantHoldsAtReset : Prop := Inv State.reset

/-- The invariant holds after every load that is not refused, the host's breakpoint set being one and the parameters giving each
opcode byte one row at most and 0x00 none (neither of which a load writes). -/
def Obligations.LoadEstablishesTheInvariant : Prop :=
  ∀ (s : State) (stream : List Word), BreakpointsOk s.breakpoints → s.params.ok = true → (load stream s).2 = none → Inv (load stream s).1

/-- Every step keeps the invariant: the memory's canonical form, the call level bounded by the step counter, the status in
agreement with the rest, the breakpoint set, and the parameters. -/
def Obligations.StepKeepsTheInvariant : Prop := ∀ s t : State, Inv s → step s = .next t → Inv t

/-- The memory's canonical form is canonical: two states that meet the invariant and read the same at every address hold the same
memory. -/
def Obligations.EqualReadsAreEqualMemories : Prop :=
  ∀ s t : State, Inv s → Inv t → SameMem [] s t → t.mem = s.mem

/-! ## Words, addresses and the ALU -/

/-- R6: the two views of a word are exact and reversible, and sign and zero extension of a word keep them. -/
def Obligations.ViewsOfAWordAreReversible : Prop :=
  (∀ i : Int, -32768 ≤ i → i ≤ 32767 → s16 (u16 i) = i) ∧ (∀ w : Word, u16 (s16 w) = w) ∧
  (∀ w : Word, s16 w = if w.toNat < 32768 then (w.toNat : Int) else (w.toNat : Int) - 65536) ∧
  (∀ w : Word, -32768 ≤ s16 w ∧ s16 w ≤ 32767 ∧ 0 ≤ unsigned w ∧ unsigned w ≤ 65535) ∧
  (∀ i : Int, unsigned (u16 i) = i % 65536) ∧
  (∀ (w : Word) (n : Nat), 16 ≤ n → (w.signExtend n).toInt = s16 w ∧ ((w.setWidth n).toNat : Int) = unsigned w)

/-- R76: the effective address, and that it is taken before the instruction's first write: a load into its own index register and
a PUSH indexed by SP use the old value. -/
def Obligations.EffectiveAddressIsModulo65536 : Prop :=
  ∀ (s : State) (adr : Word),
    s.ea adr .gr0 = adr ∧
    (∀ x : Reg, x ≠ .gr0 → (s.ea adr x).toNat = (adr.toNat + (s.reg x).toNat) % 65536) ∧
    (∀ (f : RegField) (p : Reg), Names f p →
      (∃ t, exec (.ldAdr f adr f) s = .next t ∧ t.reg p = s.readMem (s.ea adr p)) ∧
      (∃ t, exec (.lad f adr f) s = .next t ∧ t.reg p = s.ea adr p)) ∧
    (∀ f : RegField, Names f .gr8 →
      (∃ t, exec (.push adr f) s = .next t ∧ t.readMem (s.sp - 1) = adr + s.sp) ∧
      (∃ t, exec (.call adr f) s = .next t ∧ t.pr = adr + s.sp))

/-- R102: the two bases of the zero flag agree on the word, on OF and on SF, and differ on ZF exactly when the operation overflows
to a stored value of 0. -/
def Obligations.ZeroFlagBasesDifferOnlyOnAWrapToZero : Prop :=
  ∀ fn ∈ [adda, suba, addl, subl], ∀ a b : Word,
    (fn .masked a b).1 = (fn .unmasked a b).1 ∧ (fn .masked a b).2.of = (fn .unmasked a b).2.of ∧
    (fn .masked a b).2.sf = (fn .unmasked a b).2.sf ∧
    ((fn .masked a b).2.zf ≠ (fn .unmasked a b).2.zf ↔ (fn .masked a b).2.of = some true ∧ (fn .masked a b).1 = 0)

/-- R110: ADDA and ADDL store the same word, the sum of the two operands modulo 65536, and SUBA and SUBL the difference; under the
masked basis each pair differs in OF alone (under the unmasked one ZF can differ too, log entry 4). -/
def Obligations.ArithmeticAndLogicalStoreTheSameWord : Prop :=
  ∀ a b : Word,
    (∀ basis, (adda basis a b).1 = a + b ∧ (addl basis a b).1 = a + b ∧ (suba basis a b).1 = a - b ∧ (subl basis a b).1 = a - b) ∧
    (adda .masked a b).2.sf = (addl .masked a b).2.sf ∧ (adda .masked a b).2.zf = (addl .masked a b).2.zf ∧
    (suba .masked a b).2.sf = (subl .masked a b).2.sf ∧ (suba .masked a b).2.zf = (subl .masked a b).2.zf

/-- R103, R104: OF of the adds and subtracts, both forms of each: the exact result lies outside the signed range for ADDA and
SUBA, outside the unsigned range for ADDL (a carry) and SUBL (a borrow). -/
def Obligations.OverflowIsSignedForArithmeticAndUnsignedForLogical : Prop :=
  ∀ (f g : RegField) (p q : Reg) (adr : Word) (s : State), Names f p → Names g q →
    ∀ (addA subA addL subL : Instr) (b : Word),
      ((addA, subA, addL, subL, b) =
          (.addaAdr f adr g, .subaAdr f adr g, .addlAdr f adr g, .sublAdr f adr g, s.readMem (s.ea adr q)) ∨
        (addA, subA, addL, subL, b) = (.addaReg f g, .subaReg f g, .addlReg f g, .sublReg f g, s.reg q)) →
      (∃ t, exec addA s = .next t ∧
        (t.of = true ↔ (s.reg p).toInt + b.toInt < -32768 ∨ 32767 < (s.reg p).toInt + b.toInt)) ∧
      (∃ t, exec subA s = .next t ∧
        (t.of = true ↔ (s.reg p).toInt - b.toInt < -32768 ∨ 32767 < (s.reg p).toInt - b.toInt)) ∧
      (∃ t, exec addL s = .next t ∧ (t.of = true ↔ 65535 < (s.reg p).toNat + b.toNat)) ∧
      (∃ t, exec subL s = .next t ∧ (t.of = true ↔ (s.reg p).toNat < b.toNat))

/-- R105: LD, AND, OR and XOR, both forms of each, clear OF and set ZF and SF from the word they stored. -/
def Obligations.LoadsAndBitwiseOperationsSetTheFlagsOfTheStoredWord : Prop :=
  ∀ (f g : RegField) (p q : Reg) (adr : Word) (s : State), Names f p → Names g q →
    ∀ i ∈ [Instr.ldAdr f adr g, .andAdr f adr g, .orAdr f adr g, .xorAdr f adr g,
        .ldReg f g, .andReg f g, .orReg f g, .xorReg f g],
      ∃ t, exec i s = .next t ∧ t.of = false ∧ t.zf = (t.reg p == 0) ∧ t.sf = (t.reg p).getLsbD 15

/-- R180: the shifts bit by bit. SLA and SRA move the low 15 bits and keep bit 15, SLL and SRL move all 16; SRA fills with the
sign. -/
def Obligations.ShiftsMoveBits : Prop :=
  ∀ (v : Word) (n k : Nat), k < 16 →
    ((slaFn v n).1.getLsbD k = if k = 15 then v.getLsbD 15 else decide (n ≤ k) && v.getLsbD (k - n)) ∧
    ((sraFn v n).1.getLsbD k = v.getLsbD (min (k + n) 15)) ∧
    ((sllFn v n).1.getLsbD k = (decide (n ≤ k) && v.getLsbD (k - n))) ∧
    ((srlFn v n).1.getLsbD k = v.getLsbD (k + n))

/-! ## Load, store and load address -/

/-- R121, R122: LD, both forms. -/
def Obligations.LdLoadsTheWordAndSetsTheFlags : Prop :=
  RaxRule 0x10 .ldAdr (fun p adr q s t =>
    WritesReg 2 p (s.readMem (s.ea adr q)) false (s.readMem (s.ea adr q)).msb (s.readMem (s.ea adr q) == 0) s t) ∧
  RrRule 0x14 .ldReg (fun p q s t => WritesReg 1 p (s.reg q) false (s.reg q).msb (s.reg q == 0) s t)

/-- R123: ST. -/
def Obligations.StStoresTheRegister : Prop :=
  RaxRule 0x11 .st (fun p adr q s t =>
    t.readMem (s.ea adr q) = s.reg p ∧ SameMem [s.ea adr q] s t ∧ SameRegs [] s t ∧ SameFlags s t ∧ SameRest s t ∧
    FellThrough 2 s t)

/-- R124: LAD; the sum wraps and no flag changes. -/
def Obligations.LadLoadsTheAddress : Prop :=
  RaxRule 0x12 .lad (fun p adr q s t => WritesReg 2 p (s.ea adr q) s.of s.sf s.zf s t)

/-! ## Arithmetic, logic and compare -/

/-- R103, R141, R142: ADDA. OF is the signed overflow of the exact sum; ZF tests what the machine's `ZF_BASIS` says,
masked or unmasked. -/
def Obligations.AddaAddsSigned : Prop :=
  let effect (n : Nat) (p : Reg) (a b : Word) (s t : State) : Prop :=
    let sum := a.toInt + b.toInt
    WritesReg n p (BitVec.ofInt 16 sum) (decide (sum < -32768 ∨ 32767 < sum)) (BitVec.ofInt 16 sum).msb
      (decide (s.params.zfBasis = .masked ∧ BitVec.ofInt 16 sum = 0 ∨ s.params.zfBasis = .unmasked ∧ sum = 0)) s t
  RaxRule 0x20 .addaAdr (fun p adr q s t => effect 2 p (s.reg p) (s.readMem (s.ea adr q)) s t) ∧
  RrRule 0x24 .addaReg (fun p q s t => effect 1 p (s.reg p) (s.reg q) s t)

/-- R103, R143, R144: SUBA. -/
def Obligations.SubaSubtractsSigned : Prop :=
  let effect (n : Nat) (p : Reg) (a b : Word) (s t : State) : Prop :=
    let difference := a.toInt - b.toInt
    WritesReg n p (BitVec.ofInt 16 difference) (decide (difference < -32768 ∨ 32767 < difference))
      (BitVec.ofInt 16 difference).msb
      (decide (s.params.zfBasis = .masked ∧ BitVec.ofInt 16 difference = 0 ∨ s.params.zfBasis = .unmasked ∧ difference = 0)) s t
  RaxRule 0x21 .subaAdr (fun p adr q s t => effect 2 p (s.reg p) (s.readMem (s.ea adr q)) s t) ∧
  RrRule 0x25 .subaReg (fun p q s t => effect 1 p (s.reg p) (s.reg q) s t)

/-- R104, R145, R146: ADDL. OF is the carry out of bit 15. -/
def Obligations.AddlAddsUnsigned : Prop :=
  let effect (n : Nat) (p : Reg) (a b : Word) (s t : State) : Prop :=
    let sum := a.toNat + b.toNat
    WritesReg n p (BitVec.ofNat 16 sum) (decide (65535 < sum)) (BitVec.ofNat 16 sum).msb
      (decide (s.params.zfBasis = .masked ∧ BitVec.ofNat 16 sum = 0 ∨ s.params.zfBasis = .unmasked ∧ sum = 0)) s t
  RaxRule 0x22 .addlAdr (fun p adr q s t => effect 2 p (s.reg p) (s.readMem (s.ea adr q)) s t) ∧
  RrRule 0x26 .addlReg (fun p q s t => effect 1 p (s.reg p) (s.reg q) s t)

/-- R104, R147, R148: SUBL. OF is the borrow. -/
def Obligations.SublSubtractsUnsigned : Prop :=
  let effect (n : Nat) (p : Reg) (a b : Word) (s t : State) : Prop :=
    let difference := (a.toNat : Int) - (b.toNat : Int)
    WritesReg n p (BitVec.ofInt 16 difference) (decide (a.toNat < b.toNat)) (BitVec.ofInt 16 difference).msb
      (decide (s.params.zfBasis = .masked ∧ BitVec.ofInt 16 difference = 0 ∨ s.params.zfBasis = .unmasked ∧ difference = 0)) s t
  RaxRule 0x23 .sublAdr (fun p adr q s t => effect 2 p (s.reg p) (s.readMem (s.ea adr q)) s t) ∧
  RrRule 0x27 .sublReg (fun p q s t => effect 1 p (s.reg p) (s.reg q) s t)

/-- R149 to R154: AND, OR and XOR work bit by bit, with OF = 0 and SF and ZF of the stored word. -/
def Obligations.BitwiseOperationsActBitByBit : Prop :=
  let effect (op : Bool → Bool → Bool) (n : Nat) (p : Reg) (a b : Word) (s t : State) : Prop :=
    (∀ k, k < 16 → (t.reg p).getLsbD k = op (a.getLsbD k) (b.getLsbD k)) ∧
    WritesReg n p (t.reg p) false (t.reg p).msb (t.reg p == 0) s t
  RaxRule 0x30 .andAdr (fun p adr q s t => effect (· && ·) 2 p (s.reg p) (s.readMem (s.ea adr q)) s t) ∧
  RrRule 0x34 .andReg (fun p q s t => effect (· && ·) 1 p (s.reg p) (s.reg q) s t) ∧
  RaxRule 0x31 .orAdr (fun p adr q s t => effect (· || ·) 2 p (s.reg p) (s.readMem (s.ea adr q)) s t) ∧
  RrRule 0x35 .orReg (fun p q s t => effect (· || ·) 1 p (s.reg p) (s.reg q) s t) ∧
  RaxRule 0x32 .xorAdr (fun p adr q s t => effect Bool.xor 2 p (s.reg p) (s.readMem (s.ea adr q)) s t) ∧
  RrRule 0x36 .xorReg (fun p q s t => effect Bool.xor 1 p (s.reg p) (s.reg q) s t)

/-- R106, R155, R156: CPA. SF says less than in the signed view, ZF says equal. -/
def Obligations.CpaComparesSigned : Prop :=
  let effect (n : Nat) (a b : Word) (s t : State) : Prop :=
    WritesFlags n false (decide (a.toInt < b.toInt)) (decide (a = b)) s t
  RaxRule 0x40 .cpaAdr (fun p adr q s t => effect 2 (s.reg p) (s.readMem (s.ea adr q)) s t) ∧
  RrRule 0x44 .cpaReg (fun p q s t => effect 1 (s.reg p) (s.reg q) s t)

/-- R106, R157, R158: CPL. SF says less than in the unsigned view, ZF says equal. -/
def Obligations.CplComparesUnsigned : Prop :=
  let effect (n : Nat) (a b : Word) (s t : State) : Prop :=
    WritesFlags n false (decide (a.toNat < b.toNat)) (decide (a = b)) s t
  RaxRule 0x41 .cplAdr (fun p adr q s t => effect 2 (s.reg p) (s.readMem (s.ea adr q)) s t) ∧
  RrRule 0x45 .cplReg (fun p q s t => effect 1 (s.reg p) (s.reg q) s t)

/-! ## Shifts -/

/-- R180, R181: SLA by the effective address. Bit 15 stays, the field below it is multiplied by 2^n modulo 2^15; OF is bit 15 - n of
the old value. -/
def Obligations.SlaShiftsTheFieldLeft : Prop :=
  RaxRule 0x50 .sla (fun p adr q s t =>
    let v := s.reg p
    let n := (s.ea adr q).toNat
    (t.reg p).toNat = v.toNat / 2 ^ 15 * 2 ^ 15 + v.toNat * 2 ^ n % 2 ^ 15 ∧
    WritesReg 2 p (t.reg p) (decide (1 ≤ n ∧ n ≤ 15) && v.getLsbD (15 - n)) v.msb (t.reg p == 0) s t)

/-- R180, R182: SRA by the effective address. The signed view is divided by 2^n, rounding down; OF is bit n - 1 of the old value, its
sign past the word's end, and 0 for n = 0. -/
def Obligations.SraShiftsTheSignedValueRight : Prop :=
  RaxRule 0x51 .sra (fun p adr q s t =>
    let v := s.reg p
    let n := (s.ea adr q).toNat
    (t.reg p).toInt = v.toInt / 2 ^ n ∧
    WritesReg 2 p (t.reg p) (if n = 0 then false else if n ≤ 16 then v.getLsbD (n - 1) else v.msb) v.msb (t.reg p == 0) s t)

/-- R180, R183: SLL by the effective address. OF is bit 16 - n of the old value. -/
def Obligations.SllShiftsTheWordLeft : Prop :=
  RaxRule 0x52 .sll (fun p adr q s t =>
    let v := s.reg p
    let n := (s.ea adr q).toNat
    (t.reg p).toNat = v.toNat * 2 ^ n % 2 ^ 16 ∧
    WritesReg 2 p (t.reg p) (decide (1 ≤ n ∧ n ≤ 16) && v.getLsbD (16 - n)) (t.reg p).msb (t.reg p == 0) s t)

/-- R180, R184: SRL by the effective address. OF is bit n - 1 of the old value. -/
def Obligations.SrlShiftsTheWordRight : Prop :=
  RaxRule 0x53 .srl (fun p adr q s t =>
    let v := s.reg p
    let n := (s.ea adr q).toNat
    (t.reg p).toNat = v.toNat / 2 ^ n ∧
    WritesReg 2 p (t.reg p) (decide (1 ≤ n ∧ n ≤ 16) && v.getLsbD (n - 1)) (t.reg p).msb (t.reg p == 0) s t)

/-! ## Branches -/

/-- R200 to R206: each branch goes to EA when its condition holds and falls through by 2 when it does not, and changes nothing
else. -/
def Obligations.BranchesJumpOnTheirConditions : Prop :=
  let effect (condition : State → Prop) (adr : Word) (q : Reg) (s t : State) : Prop :=
    (condition s → Arrived (s.ea adr q) s t) ∧ (¬ condition s → FellThrough 2 s t) ∧
    SameRegs [] s t ∧ SameFlags s t ∧ SameMem [] s t ∧ SameRest s t
  AxRule 0x61 .jmi (effect fun s => s.sf = true) ∧
  AxRule 0x62 .jnz (effect fun s => s.zf = false) ∧
  AxRule 0x63 .jze (effect fun s => s.zf = true) ∧
  AxRule 0x64 .jump (effect fun _ => True) ∧
  AxRule 0x65 .jpl (effect fun s => s.sf = false ∧ s.zf = false) ∧
  AxRule 0x66 .jov (effect fun s => s.of = true)

/-! ## Stack, call and return -/

/-- R220: PUSH stores the effective address itself, computed with the old SP, below the stack. -/
def Obligations.PushStoresTheAddressBelowTheStack : Prop :=
  AxRule 0x70 .push (fun adr q s t =>
    t.sp = s.sp - 1 ∧ t.readMem (s.sp - 1) = s.ea adr q ∧
    SameMem [s.sp - 1] s t ∧ SameRegs [.gr8] s t ∧ SameFlags s t ∧ SameRest s t ∧ FellThrough 2 s t)

/-- R221: POP loads the top word and moves SP up; POP GR8 leaves SP at the loaded word plus 1. -/
def Obligations.PopLoadsTheTopWord : Prop :=
  ∀ (r : RegField) (s : State),
    EncodedAs s.params (.pop r) [(0x71 : Byte) ++ r ++ (0 : RegField)] ∧
    (∀ p, Names r p → ∃ t, exec (.pop r) s = .next t ∧
      (p ≠ .gr8 → t.reg p = s.readMem s.sp ∧ t.sp = s.sp + 1) ∧ (p = .gr8 → t.sp = s.readMem s.sp + 1) ∧
      SameRegs [p, .gr8] s t ∧ SameMem [] s t ∧ SameFlags s t ∧ SameRest s t ∧ FellThrough 1 s t) ∧
    (NamesNone r → exec (.pop r) s = .next (s.haltedBy (.invalidRegister s.pr)))

/-- R222: CALL pushes its own address, counts a level, and goes to EA, computed with the old SP. -/
def Obligations.CallPushesItsOwnAddress : Prop :=
  AxRule 0x80 .call (fun adr q s t =>
    t.sp = s.sp - 1 ∧ t.readMem (s.sp - 1) = s.pr ∧ t.level = s.level + 1 ∧
    SameMem [s.sp - 1] s t ∧ SameRegs [.gr8] s t ∧ SameFlags s t ∧ SameHost s t ∧
    Arrived (s.ea adr q) s t)

/-- R223: RET ends the program at call level 0, nothing but the status changing, and above it returns to the popped word
plus 2. -/
def Obligations.RetReturnsPastTheCallOrEndsTheProgram : Prop :=
  ∀ s : State,
    EncodedAs s.params .ret [(0x81 : Byte) ++ (0 : Byte)] ∧
    (s.level = 0 → exec .ret s = .next (s.haltedBy .machineExit)) ∧
    (0 < s.level → ∃ t, exec .ret s = .next t ∧
      t.sp = s.sp + 1 ∧ t.level = s.level - 1 ∧ Arrived (s.readMem s.sp + 2) s t ∧
      SameRegs [.gr8] s t ∧ SameMem [] s t ∧ SameFlags s t ∧ SameHost s t)

/-- R224: RPUSH leaves GR1..GR7 in the seven words below the old SP, SP's own new value in the eighth, and SP there. -/
def Obligations.RpushSavesTheRegisters : Prop :=
  ∀ s : State,
    (s.params.ok = true → EncodedAs s.params .rpush [s.params.opcRpush ++ (0 : Byte)]) ∧
    ∃ t, exec .rpush s = .next t ∧ t.sp = s.sp - 8 ∧
      t.readMem (s.sp - 1) = s.reg .gr1 ∧ t.readMem (s.sp - 2) = s.reg .gr2 ∧ t.readMem (s.sp - 3) = s.reg .gr3 ∧
      t.readMem (s.sp - 4) = s.reg .gr4 ∧ t.readMem (s.sp - 5) = s.reg .gr5 ∧ t.readMem (s.sp - 6) = s.reg .gr6 ∧
      t.readMem (s.sp - 7) = s.reg .gr7 ∧ t.readMem (s.sp - 8) = s.sp - 8 ∧
      SameMem [s.sp - 1, s.sp - 2, s.sp - 3, s.sp - 4, s.sp - 5, s.sp - 6, s.sp - 7, s.sp - 8] s t ∧
      SameRegs [.gr8] s t ∧ SameFlags s t ∧ SameRest s t ∧ FellThrough 1 s t

/-- R225: RPOP takes SP from the top word p, GR7..GR1 from the words p + 1..p + 7, and leaves SP at p + 8. -/
def Obligations.RpopRestoresTheRegisters : Prop :=
  ∀ s : State,
    (s.params.ok = true → EncodedAs s.params .rpop [s.params.opcRpop ++ (0 : Byte)]) ∧
    ∃ t, exec .rpop s = .next t ∧
      (let p := s.readMem s.sp
       t.sp = p + 8 ∧ t.reg .gr7 = s.readMem (p + 1) ∧ t.reg .gr6 = s.readMem (p + 2) ∧ t.reg .gr5 = s.readMem (p + 3) ∧
       t.reg .gr4 = s.readMem (p + 4) ∧ t.reg .gr3 = s.readMem (p + 5) ∧ t.reg .gr2 = s.readMem (p + 6) ∧
       t.reg .gr1 = s.readMem (p + 7)) ∧
      t.reg .gr0 = s.reg .gr0 ∧ SameMem [] s t ∧ SameFlags s t ∧ SameRest s t ∧ FellThrough 1 s t

/-- R225, R226: RPUSH and then RPOP restores every register, SP included, and the flags, from any state and any SP, wrapping
ones too. -/
def Obligations.RpushThenRpopRestoresEveryRegister : Prop :=
  ∀ s : State, ∃ t u, exec .rpush s = .next t ∧ exec .rpop t = .next u ∧ SameRegs [] s u ∧ SameFlags s u ∧ SameRest s u ∧
    u.pr = s.pr + 2

/-- R226: a CALL at address A and later a RET, from a state whose SP is what the CALL left and whose word there is still the
address A: PR resumes at A + 2, and SP and the call level are as before the CALL. -/
def Obligations.RetUndoesItsCall : Prop :=
  ∀ (s : State) (adr : Word) (x : RegField) (q : Reg), Names x q → ∃ t, exec (.call adr x) s = .next t ∧
    ∀ u : State, u.sp = t.sp → u.level = t.level → u.readMem u.sp = t.readMem t.sp →
      ∃ v, exec .ret u = .next v ∧ v.pr = s.pr + 2 ∧ v.sp = s.sp ∧ v.level = s.level

/-! ## Supervisor call and console -/

/-- R250: SVC goes back to its own address, and nothing but the step counter and the status changes. -/
def Obligations.SvcJumpsToItself : Prop :=
  AxRule 0xF0 .svc (fun _ _ s t => t = { s with steps := s.steps + 1, status := .running })

/-- R251, R253: IN takes a line of the provider, the one the host has ready or a free one, and stores at most `IN_MAX_CHARS` of its
codes from buf on, then their count at lenadr. Where two codes fall on one address the later one stays, and the count stays over
any code. A provider that never answers leaves IN stuck. -/
def Obligations.InStoresTheLineAndItsCount : Prop :=
  ∀ (buf lenadr : Word) (s : State),
    (s.params.ok = true → EncodedAs s.params (.input buf lenadr) [s.params.opcIn ++ (0 : Byte), buf, lenadr]) ∧
    (∀ codes rest, (s.consoleIn = .line codes :: rest ∨
        (s.consoleIn = [] ∧ rest = [] ∧ codes = Config.freeLine s.consoleReads)) →
      ∃ t, exec (.input buf lenadr) s = .next t ∧
        (let k := min codes.length inMaxChars
         t.readMem lenadr = BitVec.ofNat 16 k ∧
         (∀ i, i < k → (∀ j, i < j → j < k → buf + BitVec.ofNat 16 j ≠ buf + BitVec.ofNat 16 i) →
           buf + BitVec.ofNat 16 i ≠ lenadr →
           some (t.readMem (buf + BitVec.ofNat 16 i)) = codes[i]?.map (BitVec.ofNat 16)) ∧
         (∀ a : Word, a ≠ lenadr → (∀ i, i < k → buf + BitVec.ofNat 16 i ≠ a) → t.readMem a = s.readMem a)) ∧
        t.consoleIn = rest ∧ t.consoleReads = s.consoleReads + 1 ∧ t.consoleOut = s.consoleOut ∧
        SameRegs [] s t ∧ SameFlags s t ∧ t.level = s.level ∧ t.params = s.params ∧ t.breakpoints = s.breakpoints ∧
        FellThrough 3 s t) ∧
    (∀ rest, s.consoleIn = .never :: rest → exec (.input buf lenadr) s = .fault .consoleNeverAnswers)

/-- R252: OUT sends the sink one line, of as many words as the unsigned word at lenadr says, from buf on modulo 65536, and writes
no register, flag or memory word. -/
def Obligations.OutSendsTheBuffer : Prop :=
  ∀ (buf lenadr : Word) (s : State),
    (s.params.ok = true → EncodedAs s.params (.output buf lenadr) [s.params.opcOut ++ (0 : Byte), buf, lenadr]) ∧
    ∃ (t : State) (sent : List Word), exec (.output buf lenadr) s = .next t ∧ t.consoleOut = s.consoleOut ++ [sent] ∧
      sent.length = (s.readMem lenadr).toNat ∧
      (∀ i, i < sent.length → sent[i]? = some (s.readMem (buf + BitVec.ofNat 16 i))) ∧
      t.consoleIn = s.consoleIn ∧ t.consoleReads = s.consoleReads ∧
      SameRegs [] s t ∧ SameMem [] s t ∧ SameFlags s t ∧ t.level = s.level ∧ t.params = s.params ∧ t.breakpoints = s.breakpoints ∧
        FellThrough 3 s t

/-! ## Opcode 0x00 -/

/-- R83, R254: opcode 0x00 has no dispatch entry, whatever the parameters. A step that fetches it halts with InvalidOperation, and
so does the first step after a load without a payload, at whatever address the header names. -/
def Obligations.OpcodeZeroRaisesInvalidOperation : Prop :=
  (∀ s : State, s.status.isHalted = false → opcodeByte (s.readMem s.pr) = 0 →
    step s = .next (s.haltedBy (.invalidOperation s.pr))) ∧
  (∀ (s : State) (stream : List Word), stream.length = 8 → ∃ t, load stream s = (t, none) ∧ some t.pr = stream[2]? ∧
    step t = .next (t.haltedBy (.invalidOperation t.pr)))
end

