-- ==== Sys2Proof/Laws/Decode.lean ====
section
/-! SUPPORT. The laws of the fields of word 1, of the dispatch table and of the fetch. -/

namespace Sys2Proof

/-- R72: the opcode byte of a word 1. -/
@[simp] theorem opcodeByte_word1 (op : Byte) (high low : RegField) : opcodeByte (word1 op high low) = op := by
  apply BitVec.eq_of_getLsbD_eq
  intro i hi
  unfold opcodeByte word1
  rw [BitVec.getLsbD_extractLsb', BitVec.getLsbD_append, BitVec.getLsbD_append]
  grind

/-- R72: the high nibble of a word 1. -/
@[simp] theorem highNibble_word1 (op : Byte) (high low : RegField) : highNibble (word1 op high low) = high := by
  apply BitVec.eq_of_getLsbD_eq
  intro i hi
  unfold highNibble word1
  rw [BitVec.getLsbD_extractLsb', BitVec.getLsbD_append, BitVec.getLsbD_append]
  grind

/-- R72: the low nibble of a word 1. -/
@[simp] theorem lowNibble_word1 (op : Byte) (high low : RegField) : lowNibble (word1 op high low) = low := by
  apply BitVec.eq_of_getLsbD_eq
  intro i hi
  unfold lowNibble word1
  rw [BitVec.getLsbD_extractLsb', BitVec.getLsbD_append, BitVec.getLsbD_append]
  grind

/-- R72: a word is its three fields. -/
theorem word1_fields (w : Word) : word1 (opcodeByte w) (highNibble w) (lowNibble w) = w := by
  apply BitVec.eq_of_getLsbD_eq
  intro i hi
  unfold word1 opcodeByte highNibble lowNibble
  rw [BitVec.getLsbD_append, BitVec.getLsbD_append, BitVec.getLsbD_extractLsb', BitVec.getLsbD_extractLsb', BitVec.getLsbD_extractLsb']
  grind

/-- With the defaults no two rows of the dispatch table have the same opcode byte. -/
theorem defaultParams_ok : defaultParams.ok = true := by decide

/-- No two rows of the dispatch table have the same opcode byte, so the table reads the same from either end. -/
theorem opcodeTable_distinct {p : Params} (h : p.ok = true) : ((opcodeTable p).map Prod.fst).Nodup :=
  (List.nodup_cons.mp (of_decide_eq_true h)).2

/-- R83: no row has the opcode byte 0x00. -/
theorem opcodeTable_ne_zero {p : Params} (h : p.ok = true) {op : Byte} {row : OpRow} (hm : (op, row) ∈ opcodeTable p) : op ≠ 0 :=
  fun e => (List.nodup_cons.mp (of_decide_eq_true h)).1 (e ▸ List.mem_map_of_mem (f := Prod.fst) hm)

/-- R83, R254: opcode 0x00 has no row, whatever the parameters. -/
@[simp] theorem opcodeRow_zero (p : Params) : opcodeRow p 0#8 = none := rfl

/-- Any other opcode byte has the row the table gives it. -/
theorem opcodeRow_of_ne {op : Byte} (p : Params) (h : op ≠ 0) : opcodeRow p op = (opcodeTable p).lookup op := if_neg h

/-- A row with a fixed opcode number is found under every parameter. -/
theorem opcodeRow_fixed {op : Byte} {row : OpRow} (p : Params) (h : fixedRows.lookup op = some row) :
    opcodeRow p op = some row := by
  have h0 : op ≠ 0 := fun e => nomatch e ▸ h
  simp [opcodeRow_of_ne p h0, opcodeTable, List.lookup_append, h]

/-- In a list of pairs with distinct keys a member is what its key looks up. -/
theorem lookup_of_mem {rows : List (Byte × OpRow)} (hd : (rows.map Prod.fst).Nodup) {op : Byte} {row : OpRow}
    (hm : (op, row) ∈ rows) : rows.lookup op = some row := by
  induction rows with
  | nil => cases hm
  | cons head rest ih =>
    obtain ⟨op', row'⟩ := head
    simp only [List.map_cons, List.nodup_cons] at hd
    rcases List.mem_cons.mp hm with h | h
    · cases h
      simp
    · have hne : op ≠ op' := fun e => hd.1 (e ▸ List.mem_map_of_mem (f := Prod.fst) h)
      rw [List.lookup_cons, beq_false_of_ne hne]
      exact ih hd.2 h

/-- A row whose opcode number is a parameter is found where the parameters give each opcode byte one row at most and 0x00 none. -/
theorem opcodeRow_param {p : Params} (hp : p.ok = true) {op : Byte} {row : OpRow} (hm : (op, row) ∈ paramRows p) :
    opcodeRow p op = some row := by
  have ht : (op, row) ∈ opcodeTable p := List.mem_append_right _ hm
  rw [opcodeRow_of_ne p (opcodeTable_ne_zero hp ht), lookup_of_mem (opcodeTable_distinct hp) ht]

/-- R80: the row of `OPC_IN`. -/
theorem opcodeRow_opcIn {p : Params} (hp : p.ok = true) : opcodeRow p p.opcIn = some (.s .input) :=
  opcodeRow_param hp (by simp [paramRows])

/-- R80: the row of `OPC_OUT`. -/
theorem opcodeRow_opcOut {p : Params} (hp : p.ok = true) : opcodeRow p p.opcOut = some (.s .output) :=
  opcodeRow_param hp (by simp [paramRows])

/-- R80: the row of `OPC_RPUSH`. -/
theorem opcodeRow_opcRpush {p : Params} (hp : p.ok = true) : opcodeRow p p.opcRpush = some (.n .rpush) :=
  opcodeRow_param hp (by simp [paramRows])

/-- R80: the row of `OPC_RPOP`. -/
theorem opcodeRow_opcRpop {p : Params} (hp : p.ok = true) : opcodeRow p p.opcRpop = some (.n .rpop) :=
  opcodeRow_param hp (by simp [paramRows])

/-- The operands of a row need as many words as its shape is long: with that many or more there is an instruction. -/
theorem OpRow.operands_ok (row : OpRow) (w1 : Word) (rest : List Word) (h : row.shape.length ≤ rest.length + 1) :
    ∃ i, row.operands w1 rest = .ok (i, rest.drop (row.shape.length - 1)) := by
  cases row with
  | n i => exact ⟨i, rfl⟩
  | r mk => exact ⟨_, rfl⟩
  | rr mk => exact ⟨_, rfl⟩
  | ax mk =>
    match rest, h with
    | [], h => simp [OpRow.shape, Shape.length] at h
    | adr :: rest, _ => exact ⟨_, rfl⟩
  | rax mk =>
    match rest, h with
    | [], h => simp [OpRow.shape, Shape.length] at h
    | adr :: rest, _ => exact ⟨_, rfl⟩
  | s mk =>
    match rest, h with
    | [], h => simp [OpRow.shape, Shape.length] at h
    | [_], h => simp [OpRow.shape, Shape.length] at h
    | buf :: lenadr :: rest, _ => exact ⟨_, rfl⟩

/-- The operands depend on no word past the row's length. -/
theorem OpRow.operands_append (row : OpRow) (w1 : Word) (rest more : List Word) (h : row.shape.length ≤ rest.length + 1)
    {i : Instr} (hi : row.operands w1 rest = .ok (i, rest.drop (row.shape.length - 1))) :
    row.operands w1 (rest ++ more) = .ok (i, rest.drop (row.shape.length - 1) ++ more) := by
  cases row with
  | n i' => cases hi; rfl
  | r mk => cases hi; rfl
  | rr mk => cases hi; rfl
  | ax mk =>
    match rest, h with
    | [], h => simp [OpRow.shape, Shape.length] at h
    | adr :: rest, _ => cases hi; rfl
  | rax mk =>
    match rest, h with
    | [], h => simp [OpRow.shape, Shape.length] at h
    | adr :: rest, _ => cases hi; rfl
  | s mk =>
    match rest, h with
    | [], h => simp [OpRow.shape, Shape.length] at h
    | [_], h => simp [OpRow.shape, Shape.length] at h
    | buf :: lenadr :: rest, _ => cases hi; rfl

namespace Machine

/-- The fetch takes as many words as it asks for. -/
@[simp] theorem State.wordsFrom_length (s : State) (a : Word) (k : Nat) : (s.wordsFrom a k).length = k := by
  induction k generalizing a with
  | zero => rfl
  | succ k ih => simp [State.wordsFrom, ih]

/-- Every shape takes a word at least. -/
theorem Shape.length_pos (sh : Shape) : 0 < sh.length := by cases sh <;> decide

/-- What the fetch answers: the instruction of the row at PR, or the rejection of an opcode without a row. A fetched list is
never too short. -/
theorem State.fetch_cases (s : State) :
    (∃ row i, opcodeRow s.params (opcodeByte (s.readMem s.pr)) = some row ∧
      row.operands (s.readMem s.pr) (s.wordsFrom (s.pr + 1) (row.shape.length - 1)) = .ok (i, []) ∧ s.fetch = .ok i) ∨
    (opcodeRow s.params (opcodeByte (s.readMem s.pr)) = none ∧
      s.fetch = .error (.unknownOpcode (opcodeByte (s.readMem s.pr)))) := by
  cases h : opcodeRow s.params (opcodeByte (s.readMem s.pr)) with
  | none =>
    refine .inr ⟨rfl, ?_⟩
    simp [State.fetch, State.fetchWords, opcodeLength, h, State.wordsFrom, decode]
  | some row =>
    obtain ⟨k, hk⟩ : ∃ k, row.shape.length = k + 1 := ⟨row.shape.length - 1, by have := Shape.length_pos row.shape; omega⟩
    obtain ⟨i, hi⟩ := row.operands_ok (s.readMem s.pr) (s.wordsFrom (s.pr + 1) k) (by simp [hk])
    have hd : (s.wordsFrom (s.pr + 1) k).drop (row.shape.length - 1) = [] := by
      rw [hk, Nat.add_sub_cancel]; exact List.drop_eq_nil_of_le (by simp)
    rw [hd] at hi
    refine .inl ⟨row, i, rfl, by simpa [hk] using hi, ?_⟩
    simp only [State.fetch, State.fetchWords, opcodeLength, h, hk, State.wordsFrom, decode, hi]

end Machine

end Sys2Proof
end

