-- ==== Sys2Proof/Laws/Flags.lean ====
section
/-! SUPPORT. Spec lemmas of the word conversions and the shift functions. -/

namespace Sys2Proof.Machine

/-- R6: a word survives its signed view. -/
@[simp] theorem u16_s16 (w : Word) : u16 (s16 w) = w := by simp [u16, s16]

/-- R180: the word of SRA is the signed quotient rounded down, for every amount. -/
theorem sraWord_eq (v : Word) (n : Nat) : sraWord v n = u16 (s16 v / 2 ^ n) := by
  unfold sraWord
  split
  · rename_i h
    simp [h]
  · rw [Nat.cast_pow, Nat.cast_ofNat]

/-- R180: the word of SLL is the product modulo 65536, for every amount. -/
theorem sllWord_eq (v : Word) (n : Nat) : sllWord v n = BitVec.ofNat 16 (v.toNat * 2 ^ n) := by
  unfold sllWord
  split
  · rename_i h
    simp [h]
  · apply BitVec.eq_of_toNat_eq
    simp

/-- R180: the word of SRL is the quotient, for every amount. -/
theorem srlWord_eq (v : Word) (n : Nat) : srlWord v n = BitVec.ofNat 16 (v.toNat / 2 ^ n) := by
  unfold srlWord
  split
  · rename_i h
    simp [h]
  · rfl

end Sys2Proof.Machine
end

