-- ==== Sys2Proof/Laws/Memory.lean ====
section
/-! SUPPORT. The laws of the memory: read after write, and that every operation keeps the canonical form. -/

namespace Sys2Proof.Machine

@[simp] theorem Memory.read_nil (a : Nat) : Memory.read [] a = Memory.unlisted := rfl

theorem Memory.read_cons (k : Nat) (v : Word) (rest : Memory) (a : Nat) :
    Memory.read ((k, v) :: rest) a = if k = a then v else rest.read a := rfl

theorem Memory.read_erase (m : Memory) (a b : Nat) :
    (m.erase a).read b = if a = b then Memory.unlisted else m.read b := by
  induction m with
  | nil => simp [Memory.erase]
  | cons c rest ih =>
    obtain ⟨k, w⟩ := c
    by_cases hk : k = a <;> by_cases hb : a = b <;> simp_all [Memory.erase, Memory.read_cons]

theorem Memory.read_insert (m : Memory) (a b : Nat) (v : Word) (h : m.read a = Memory.unlisted)
    (hk : ∀ w, (a, w) ∉ m) : (m.insert a v).read b = if a = b then v else m.read b := by
  induction m with
  | nil => simp [Memory.insert, Memory.read_cons]
  | cons c rest ih =>
    obtain ⟨k, w⟩ := c
    have hka : k ≠ a := by rintro rfl; exact hk w (by simp)
    have ih := ih (by simpa [Memory.read_cons, hka] using h) (fun u hu => hk u (by simp [hu]))
    unfold Memory.insert
    split
    · rw [Memory.read_cons]
    · rw [Memory.read_cons, Memory.read_cons, ih]
      by_cases hkb : k = b
      · rw [if_pos hkb, if_pos hkb, if_neg (fun hab => hka (hkb.trans hab.symm))]
      · rw [if_neg hkb, if_neg hkb]

theorem Memory.not_mem_erase (m : Memory) (a : Nat) (w : Word) : (a, w) ∉ m.erase a := by
  induction m with
  | nil => simp [Memory.erase]
  | cons c rest ih =>
    obtain ⟨k, u⟩ := c
    by_cases hk : k = a
    · simp [Memory.erase, hk, ih]
    · simp [Memory.erase, hk, ih, Ne.symm hk]

/-- Reading after writing, at any address. -/
theorem Memory.read_write (m : Memory) (a b : Nat) (v : Word) :
    (m.write a v).read b = if a = b then v else m.read b := by
  unfold Memory.write
  split
  · subst v; exact Memory.read_erase m a b
  · rw [Memory.read_insert _ _ _ _ (by simp [Memory.read_erase]) (Memory.not_mem_erase m a), Memory.read_erase]
    split <;> simp_all

theorem Memory.wfFrom_mono {lo lo' : Nat} {m : Memory} (h : Memory.wfFrom lo m = true) (hl : lo' ≤ lo) :
    Memory.wfFrom lo' m = true := by
  cases m with
  | nil => rfl
  | cons c rest =>
    obtain ⟨k, v⟩ := c
    simp only [Memory.wfFrom, Bool.and_eq_true, decide_eq_true_eq] at h ⊢
    exact ⟨⟨⟨by omega, h.1.1.2⟩, h.1.2⟩, h.2⟩

theorem Memory.erase_wfFrom {lo : Nat} {m : Memory} (h : Memory.wfFrom lo m = true) (a : Nat) :
    Memory.wfFrom lo (m.erase a) = true := by
  induction m generalizing lo with
  | nil => rfl
  | cons c rest ih =>
    obtain ⟨k, v⟩ := c
    simp only [Memory.wfFrom, Bool.and_eq_true, decide_eq_true_eq] at h
    unfold Memory.erase
    split
    · exact Memory.wfFrom_mono (ih h.2) (by omega)
    · simp only [Memory.wfFrom, Bool.and_eq_true, decide_eq_true_eq]
      exact ⟨h.1, ih h.2⟩

theorem Memory.insert_wfFrom {lo a : Nat} {m : Memory} {v : Word} (h : Memory.wfFrom lo m = true) (hm : ∀ w, (a, w) ∉ m)
    (hlo : lo ≤ a) (ha : a < memWords) (hv : v ≠ Memory.unlisted) : Memory.wfFrom lo (m.insert a v) = true := by
  induction m generalizing lo with
  | nil => simp [Memory.insert, Memory.wfFrom, hlo, ha, hv]
  | cons c rest ih =>
    obtain ⟨k, w⟩ := c
    have hk : k ≠ a := by rintro rfl; exact hm w (by simp)
    simp only [Memory.wfFrom, Bool.and_eq_true, decide_eq_true_eq] at h
    unfold Memory.insert
    split
    · simp only [Memory.wfFrom, Bool.and_eq_true, decide_eq_true_eq]
      exact ⟨⟨⟨hlo, ha⟩, by simpa using hv⟩, ⟨⟨by omega, h.1.1.2⟩, h.1.2⟩, h.2⟩
    · simp only [Memory.wfFrom, Bool.and_eq_true, decide_eq_true_eq]
      exact ⟨h.1, ih h.2 (fun u hu => hm u (by simp [hu])) (by omega)⟩

/-- Every write at an address keeps the canonical form. -/
theorem Memory.write_wf {m : Memory} (h : m.wf = true) {a : Nat} (ha : a < memWords) (v : Word) : (m.write a v).wf = true := by
  unfold Memory.write
  split
  · exact Memory.erase_wfFrom h a
  · exact Memory.insert_wfFrom (Memory.erase_wfFrom h a) (Memory.not_mem_erase m a) (Nat.zero_le a) ha ‹_›

/-- What a payload reads as. -/
theorem Memory.read_ofWords (ws : List Word) (a b : Nat) :
    (Memory.ofWords a ws).read b = if a ≤ b then ws.getD (b - a) Memory.unlisted else Memory.unlisted := by
  induction ws generalizing a with
  | nil => simp [Memory.ofWords]
  | cons v rest ih =>
    have hr : (Memory.ofWords a (v :: rest)).read b = if a = b then v else (Memory.ofWords (a + 1) rest).read b := by
      rw [Memory.ofWords, Memory.cell]
      split
      · rename_i hv
        by_cases hab : a = b
        · subst hab; simp [ih, hv]
        · simp [hab]
      · simp [Memory.read_cons]
    rw [hr, ih]
    rcases Nat.lt_trichotomy a b with hab | hab | hab
    · obtain ⟨d, rfl⟩ : ∃ d, b = a + d + 1 := ⟨b - a - 1, by omega⟩
      have h1 : a + d + 1 - (a + 1) = d := by omega
      have h2 : a + d + 1 - a = d + 1 := by omega
      have h3 : ¬ a = a + d + 1 := by omega
      have h4 : a ≤ a + d + 1 := by omega
      have h5 : a + 1 ≤ a + d + 1 := by omega
      rw [h1, h2, if_neg h3, if_pos h4, if_pos h5]
      simp
    · subst hab; simp
    · have h1 : ¬ a ≤ b := by omega
      have h2 : ¬ a + 1 ≤ b := by omega
      have h3 : ¬ a = b := by omega
      rw [if_neg h1, if_neg h2, if_neg h3]

/-- A payload that fits is in the canonical form. -/
theorem Memory.ofWords_wfFrom (ws : List Word) (a : Nat) (h : a + ws.length ≤ memWords) :
    Memory.wfFrom a (Memory.ofWords a ws) = true := by
  induction ws generalizing a with
  | nil => rfl
  | cons v rest ih =>
    have hr := ih (a + 1) (by simp only [List.length_cons] at h; omega)
    unfold Memory.ofWords Memory.cell
    split
    · exact Memory.wfFrom_mono hr (by omega)
    · rename_i hv
      simp only [List.length_cons] at h
      simp only [List.cons_append, List.nil_append, Memory.wfFrom, Bool.and_eq_true, decide_eq_true_eq]
      exact ⟨⟨⟨Nat.le_refl a, by omega⟩, by simpa using hv⟩, hr⟩

theorem Memory.read_eq_unlisted_of_lt {lo a : Nat} {m : Memory} (h : Memory.wfFrom lo m = true) (ha : a < lo) :
    m.read a = Memory.unlisted := by
  induction m generalizing lo with
  | nil => rfl
  | cons c rest ih =>
    obtain ⟨k, v⟩ := c
    simp only [Memory.wfFrom, Bool.and_eq_true, decide_eq_true_eq] at h
    rw [Memory.read_cons, if_neg (by omega)]
    exact ih h.2 (by omega)

theorem Memory.eq_of_read_from {lo : Nat} {m m' : Memory} (h : Memory.wfFrom lo m = true) (h' : Memory.wfFrom lo m' = true)
    (hr : ∀ a, m.read a = m'.read a) : m = m' := by
  induction m generalizing lo m' with
  | nil =>
    cases m' with
    | nil => rfl
    | cons c rest' =>
      obtain ⟨k, v⟩ := c
      simp only [Memory.wfFrom, Bool.and_eq_true, decide_eq_true_eq, bne_iff_ne] at h'
      exact absurd (hr k) (by simpa [Memory.read_cons] using Ne.symm h'.1.2)
  | cons c rest ih =>
    obtain ⟨k, v⟩ := c
    simp only [Memory.wfFrom, Bool.and_eq_true, decide_eq_true_eq, bne_iff_ne] at h
    cases m' with
    | nil => exact absurd (hr k) (by simpa [Memory.read_cons] using h.1.2)
    | cons c' rest' =>
      obtain ⟨k', v'⟩ := c'
      simp only [Memory.wfFrom, Bool.and_eq_true, decide_eq_true_eq, bne_iff_ne] at h'
      have hkk : k = k' := by
        rcases Nat.lt_trichotomy k k' with hlt | heq | hgt
        · have := hr k
          rw [Memory.read_cons, if_pos rfl, Memory.read_cons, if_neg (by omega),
            Memory.read_eq_unlisted_of_lt h'.2 (by omega)] at this
          exact absurd this h.1.2
        · exact heq
        · have := hr k'
          rw [Memory.read_cons, if_neg (by omega), Memory.read_eq_unlisted_of_lt h.2 (by omega),
            Memory.read_cons, if_pos rfl] at this
          exact absurd this.symm h'.1.2
      subst hkk
      have hv : v = v' := by simpa [Memory.read_cons] using hr k
      subst hv
      have hrest : rest = rest' := by
        refine ih h.2 h'.2 fun a => ?_
        by_cases hka : k = a
        · rw [Memory.read_eq_unlisted_of_lt h.2 (by omega), Memory.read_eq_unlisted_of_lt h'.2 (by omega)]
        · simpa [Memory.read_cons, hka] using hr a
      rw [hrest]

/-- Two memories in the canonical form that read the same everywhere are the same data. -/
theorem Memory.eq_of_read {m m' : Memory} (h : m.wf = true) (h' : m'.wf = true) (hr : ∀ a, m.read a = m'.read a) : m = m' :=
  Memory.eq_of_read_from h h' hr

end Sys2Proof.Machine
end

