-- ==== Sys2Proof/Laws/State.lean ====
section
/-! SUPPORT. The fields of the state after each update, so that no proof unfolds a record update. -/

namespace Sys2Proof.Machine

variable (s : State)

/-! setReg -/

@[simp] theorem State.setReg_gr (q : Reg) (v : Word) : (s.setReg q v).gr = s.gr.set q v := rfl
@[simp] theorem State.setReg_pr (q : Reg) (v : Word) : (s.setReg q v).pr = s.pr := rfl
@[simp] theorem State.setReg_of (q : Reg) (v : Word) : (s.setReg q v).of = s.of := rfl
@[simp] theorem State.setReg_sf (q : Reg) (v : Word) : (s.setReg q v).sf = s.sf := rfl
@[simp] theorem State.setReg_zf (q : Reg) (v : Word) : (s.setReg q v).zf = s.zf := rfl
@[simp] theorem State.setReg_level (q : Reg) (v : Word) : (s.setReg q v).level = s.level := rfl
@[simp] theorem State.setReg_steps (q : Reg) (v : Word) : (s.setReg q v).steps = s.steps := rfl
@[simp] theorem State.setReg_params (q : Reg) (v : Word) : (s.setReg q v).params = s.params := rfl
@[simp] theorem State.setReg_status (q : Reg) (v : Word) : (s.setReg q v).status = s.status := rfl
@[simp] theorem State.setReg_mem (q : Reg) (v : Word) : (s.setReg q v).mem = s.mem := rfl
@[simp] theorem State.setReg_breakpoints (q : Reg) (v : Word) : (s.setReg q v).breakpoints = s.breakpoints := rfl
@[simp] theorem State.setReg_consoleIn (q : Reg) (v : Word) : (s.setReg q v).consoleIn = s.consoleIn := rfl
@[simp] theorem State.setReg_consoleReads (q : Reg) (v : Word) : (s.setReg q v).consoleReads = s.consoleReads := rfl
@[simp] theorem State.setReg_consoleOut (q : Reg) (v : Word) : (s.setReg q v).consoleOut = s.consoleOut := rfl
@[simp] theorem State.setReg_readMem (q : Reg) (v : Word) (c : Word) : (s.setReg q v).readMem c = s.readMem c := rfl

/-! writeMem -/

@[simp] theorem State.writeMem_gr (a v : Word) : (s.writeMem a v).gr = s.gr := rfl
@[simp] theorem State.writeMem_pr (a v : Word) : (s.writeMem a v).pr = s.pr := rfl
@[simp] theorem State.writeMem_of (a v : Word) : (s.writeMem a v).of = s.of := rfl
@[simp] theorem State.writeMem_sf (a v : Word) : (s.writeMem a v).sf = s.sf := rfl
@[simp] theorem State.writeMem_zf (a v : Word) : (s.writeMem a v).zf = s.zf := rfl
@[simp] theorem State.writeMem_level (a v : Word) : (s.writeMem a v).level = s.level := rfl
@[simp] theorem State.writeMem_steps (a v : Word) : (s.writeMem a v).steps = s.steps := rfl
@[simp] theorem State.writeMem_params (a v : Word) : (s.writeMem a v).params = s.params := rfl
@[simp] theorem State.writeMem_status (a v : Word) : (s.writeMem a v).status = s.status := rfl
@[simp] theorem State.writeMem_mem (a v : Word) : (s.writeMem a v).mem = s.mem.write a.toNat v := rfl
@[simp] theorem State.writeMem_breakpoints (a v : Word) : (s.writeMem a v).breakpoints = s.breakpoints := rfl
@[simp] theorem State.writeMem_consoleIn (a v : Word) : (s.writeMem a v).consoleIn = s.consoleIn := rfl
@[simp] theorem State.writeMem_consoleReads (a v : Word) : (s.writeMem a v).consoleReads = s.consoleReads := rfl
@[simp] theorem State.writeMem_consoleOut (a v : Word) : (s.writeMem a v).consoleOut = s.consoleOut := rfl
@[simp] theorem State.writeMem_reg (a v : Word) (p : Reg) : (s.writeMem a v).reg p = s.reg p := rfl
@[simp] theorem State.writeMem_sp (a v : Word) : (s.writeMem a v).sp = s.sp := rfl

/-! applyFlags -/

@[simp] theorem State.applyFlags_gr (f : Option FlagTriple) : (s.applyFlags f).gr = s.gr := by cases f <;> rfl
@[simp] theorem State.applyFlags_pr (f : Option FlagTriple) : (s.applyFlags f).pr = s.pr := by cases f <;> rfl
@[simp] theorem State.applyFlags_level (f : Option FlagTriple) : (s.applyFlags f).level = s.level := by cases f <;> rfl
@[simp] theorem State.applyFlags_steps (f : Option FlagTriple) : (s.applyFlags f).steps = s.steps := by cases f <;> rfl
@[simp] theorem State.applyFlags_params (f : Option FlagTriple) : (s.applyFlags f).params = s.params := by cases f <;> rfl
@[simp] theorem State.applyFlags_status (f : Option FlagTriple) : (s.applyFlags f).status = s.status := by cases f <;> rfl
@[simp] theorem State.applyFlags_mem (f : Option FlagTriple) : (s.applyFlags f).mem = s.mem := by cases f <;> rfl
@[simp] theorem State.applyFlags_breakpoints (f : Option FlagTriple) : (s.applyFlags f).breakpoints = s.breakpoints := by cases f <;> rfl
@[simp] theorem State.applyFlags_consoleIn (f : Option FlagTriple) : (s.applyFlags f).consoleIn = s.consoleIn := by cases f <;> rfl
@[simp] theorem State.applyFlags_consoleReads (f : Option FlagTriple) : (s.applyFlags f).consoleReads = s.consoleReads := by cases f <;> rfl
@[simp] theorem State.applyFlags_consoleOut (f : Option FlagTriple) : (s.applyFlags f).consoleOut = s.consoleOut := by cases f <;> rfl
@[simp] theorem State.applyFlags_reg (f : Option FlagTriple) (p : Reg) : (s.applyFlags f).reg p = s.reg p := by cases f <;> rfl
@[simp] theorem State.applyFlags_sp (f : Option FlagTriple) : (s.applyFlags f).sp = s.sp := by cases f <;> rfl
@[simp] theorem State.applyFlags_ea (f : Option FlagTriple) (adr : Word) (x : Reg) : (s.applyFlags f).ea adr x = s.ea adr x := by cases f <;> rfl
@[simp] theorem State.applyFlags_readMem (f : Option FlagTriple) (c : Word) : (s.applyFlags f).readMem c = s.readMem c := by cases f <;> rfl

/-! arrive -/

@[simp] theorem State.arrive_gr (target : Word) : (s.arrive target).gr = s.gr := rfl
@[simp] theorem State.arrive_pr (target : Word) : (s.arrive target).pr = target := rfl
@[simp] theorem State.arrive_of (target : Word) : (s.arrive target).of = s.of := rfl
@[simp] theorem State.arrive_sf (target : Word) : (s.arrive target).sf = s.sf := rfl
@[simp] theorem State.arrive_zf (target : Word) : (s.arrive target).zf = s.zf := rfl
@[simp] theorem State.arrive_level (target : Word) : (s.arrive target).level = s.level := rfl
@[simp] theorem State.arrive_steps (target : Word) : (s.arrive target).steps = s.steps + 1 := rfl
@[simp] theorem State.arrive_params (target : Word) : (s.arrive target).params = s.params := rfl
@[simp] theorem State.arrive_status (target : Word) : (s.arrive target).status = .running := rfl
@[simp] theorem State.arrive_mem (target : Word) : (s.arrive target).mem = s.mem := rfl
@[simp] theorem State.arrive_breakpoints (target : Word) : (s.arrive target).breakpoints = s.breakpoints := rfl
@[simp] theorem State.arrive_consoleIn (target : Word) : (s.arrive target).consoleIn = s.consoleIn := rfl
@[simp] theorem State.arrive_consoleReads (target : Word) : (s.arrive target).consoleReads = s.consoleReads := rfl
@[simp] theorem State.arrive_consoleOut (target : Word) : (s.arrive target).consoleOut = s.consoleOut := rfl
@[simp] theorem State.arrive_reg (target : Word) (p : Reg) : (s.arrive target).reg p = s.reg p := rfl
@[simp] theorem State.arrive_sp (target : Word) : (s.arrive target).sp = s.sp := rfl
@[simp] theorem State.arrive_ea (target : Word) (adr : Word) (x : Reg) : (s.arrive target).ea adr x = s.ea adr x := rfl
@[simp] theorem State.arrive_readMem (target : Word) (c : Word) : (s.arrive target).readMem c = s.readMem c := rfl

/-! setLevel -/

@[simp] theorem State.setLevel_gr (n : Nat) : (s.setLevel n).gr = s.gr := rfl
@[simp] theorem State.setLevel_pr (n : Nat) : (s.setLevel n).pr = s.pr := rfl
@[simp] theorem State.setLevel_of (n : Nat) : (s.setLevel n).of = s.of := rfl
@[simp] theorem State.setLevel_sf (n : Nat) : (s.setLevel n).sf = s.sf := rfl
@[simp] theorem State.setLevel_zf (n : Nat) : (s.setLevel n).zf = s.zf := rfl
@[simp] theorem State.setLevel_level (n : Nat) : (s.setLevel n).level = n := rfl
@[simp] theorem State.setLevel_steps (n : Nat) : (s.setLevel n).steps = s.steps := rfl
@[simp] theorem State.setLevel_params (n : Nat) : (s.setLevel n).params = s.params := rfl
@[simp] theorem State.setLevel_status (n : Nat) : (s.setLevel n).status = s.status := rfl
@[simp] theorem State.setLevel_mem (n : Nat) : (s.setLevel n).mem = s.mem := rfl
@[simp] theorem State.setLevel_breakpoints (n : Nat) : (s.setLevel n).breakpoints = s.breakpoints := rfl
@[simp] theorem State.setLevel_consoleIn (n : Nat) : (s.setLevel n).consoleIn = s.consoleIn := rfl
@[simp] theorem State.setLevel_consoleReads (n : Nat) : (s.setLevel n).consoleReads = s.consoleReads := rfl
@[simp] theorem State.setLevel_consoleOut (n : Nat) : (s.setLevel n).consoleOut = s.consoleOut := rfl
@[simp] theorem State.setLevel_reg (n : Nat) (p : Reg) : (s.setLevel n).reg p = s.reg p := rfl
@[simp] theorem State.setLevel_sp (n : Nat) : (s.setLevel n).sp = s.sp := rfl
@[simp] theorem State.setLevel_ea (n : Nat) (adr : Word) (x : Reg) : (s.setLevel n).ea adr x = s.ea adr x := rfl
@[simp] theorem State.setLevel_readMem (n : Nat) (c : Word) : (s.setLevel n).readMem c = s.readMem c := rfl

/-! consumeAnswer -/

@[simp] theorem State.consumeAnswer_gr : (s.consumeAnswer).gr = s.gr := rfl
@[simp] theorem State.consumeAnswer_pr : (s.consumeAnswer).pr = s.pr := rfl
@[simp] theorem State.consumeAnswer_of : (s.consumeAnswer).of = s.of := rfl
@[simp] theorem State.consumeAnswer_sf : (s.consumeAnswer).sf = s.sf := rfl
@[simp] theorem State.consumeAnswer_zf : (s.consumeAnswer).zf = s.zf := rfl
@[simp] theorem State.consumeAnswer_level : (s.consumeAnswer).level = s.level := rfl
@[simp] theorem State.consumeAnswer_steps : (s.consumeAnswer).steps = s.steps := rfl
@[simp] theorem State.consumeAnswer_params : (s.consumeAnswer).params = s.params := rfl
@[simp] theorem State.consumeAnswer_status : (s.consumeAnswer).status = s.status := rfl
@[simp] theorem State.consumeAnswer_mem : (s.consumeAnswer).mem = s.mem := rfl
@[simp] theorem State.consumeAnswer_breakpoints : (s.consumeAnswer).breakpoints = s.breakpoints := rfl
@[simp] theorem State.consumeAnswer_consoleIn : (s.consumeAnswer).consoleIn = s.consoleIn.tail := rfl
@[simp] theorem State.consumeAnswer_consoleReads : (s.consumeAnswer).consoleReads = s.consoleReads + 1 := rfl
@[simp] theorem State.consumeAnswer_consoleOut : (s.consumeAnswer).consoleOut = s.consoleOut := rfl
@[simp] theorem State.consumeAnswer_reg (p : Reg) : (s.consumeAnswer).reg p = s.reg p := rfl
@[simp] theorem State.consumeAnswer_sp : (s.consumeAnswer).sp = s.sp := rfl
@[simp] theorem State.consumeAnswer_ea (adr : Word) (x : Reg) : (s.consumeAnswer).ea adr x = s.ea adr x := rfl
@[simp] theorem State.consumeAnswer_readMem (c : Word) : (s.consumeAnswer).readMem c = s.readMem c := rfl

/-! sendLine -/

@[simp] theorem State.sendLine_gr (line : List Word) : (s.sendLine line).gr = s.gr := rfl
@[simp] theorem State.sendLine_pr (line : List Word) : (s.sendLine line).pr = s.pr := rfl
@[simp] theorem State.sendLine_of (line : List Word) : (s.sendLine line).of = s.of := rfl
@[simp] theorem State.sendLine_sf (line : List Word) : (s.sendLine line).sf = s.sf := rfl
@[simp] theorem State.sendLine_zf (line : List Word) : (s.sendLine line).zf = s.zf := rfl
@[simp] theorem State.sendLine_level (line : List Word) : (s.sendLine line).level = s.level := rfl
@[simp] theorem State.sendLine_steps (line : List Word) : (s.sendLine line).steps = s.steps := rfl
@[simp] theorem State.sendLine_params (line : List Word) : (s.sendLine line).params = s.params := rfl
@[simp] theorem State.sendLine_status (line : List Word) : (s.sendLine line).status = s.status := rfl
@[simp] theorem State.sendLine_mem (line : List Word) : (s.sendLine line).mem = s.mem := rfl
@[simp] theorem State.sendLine_breakpoints (line : List Word) : (s.sendLine line).breakpoints = s.breakpoints := rfl
@[simp] theorem State.sendLine_consoleIn (line : List Word) : (s.sendLine line).consoleIn = s.consoleIn := rfl
@[simp] theorem State.sendLine_consoleReads (line : List Word) : (s.sendLine line).consoleReads = s.consoleReads := rfl
@[simp] theorem State.sendLine_consoleOut (line : List Word) : (s.sendLine line).consoleOut = s.consoleOut ++ [line] := rfl
@[simp] theorem State.sendLine_reg (line : List Word) (p : Reg) : (s.sendLine line).reg p = s.reg p := rfl
@[simp] theorem State.sendLine_sp (line : List Word) : (s.sendLine line).sp = s.sp := rfl
@[simp] theorem State.sendLine_ea (line : List Word) (adr : Word) (x : Reg) : (s.sendLine line).ea adr x = s.ea adr x := rfl
@[simp] theorem State.sendLine_readMem (line : List Word) (c : Word) : (s.sendLine line).readMem c = s.readMem c := rfl

/-! haltedBy -/

@[simp] theorem State.haltedBy_gr (r : HaltReason) : (s.haltedBy r).gr = s.gr := rfl
@[simp] theorem State.haltedBy_pr (r : HaltReason) : (s.haltedBy r).pr = s.pr := rfl
@[simp] theorem State.haltedBy_of (r : HaltReason) : (s.haltedBy r).of = s.of := rfl
@[simp] theorem State.haltedBy_sf (r : HaltReason) : (s.haltedBy r).sf = s.sf := rfl
@[simp] theorem State.haltedBy_zf (r : HaltReason) : (s.haltedBy r).zf = s.zf := rfl
@[simp] theorem State.haltedBy_level (r : HaltReason) : (s.haltedBy r).level = s.level := rfl
@[simp] theorem State.haltedBy_steps (r : HaltReason) : (s.haltedBy r).steps = s.steps := rfl
@[simp] theorem State.haltedBy_params (r : HaltReason) : (s.haltedBy r).params = s.params := rfl
@[simp] theorem State.haltedBy_status (r : HaltReason) : (s.haltedBy r).status = .halted r := rfl
@[simp] theorem State.haltedBy_mem (r : HaltReason) : (s.haltedBy r).mem = s.mem := rfl
@[simp] theorem State.haltedBy_breakpoints (r : HaltReason) : (s.haltedBy r).breakpoints = s.breakpoints := rfl
@[simp] theorem State.haltedBy_consoleIn (r : HaltReason) : (s.haltedBy r).consoleIn = s.consoleIn := rfl
@[simp] theorem State.haltedBy_consoleReads (r : HaltReason) : (s.haltedBy r).consoleReads = s.consoleReads := rfl
@[simp] theorem State.haltedBy_consoleOut (r : HaltReason) : (s.haltedBy r).consoleOut = s.consoleOut := rfl
@[simp] theorem State.haltedBy_reg (r : HaltReason) (p : Reg) : (s.haltedBy r).reg p = s.reg p := rfl
@[simp] theorem State.haltedBy_sp (r : HaltReason) : (s.haltedBy r).sp = s.sp := rfl
@[simp] theorem State.haltedBy_ea (r : HaltReason) (adr : Word) (x : Reg) : (s.haltedBy r).ea adr x = s.ea adr x := rfl
@[simp] theorem State.haltedBy_readMem (r : HaltReason) (c : Word) : (s.haltedBy r).readMem c = s.readMem c := rfl

/-! The flags after a flag triple (R89) -/

@[simp] theorem State.applyFlags_none : s.applyFlags none = s := rfl
@[simp] theorem State.applyFlags_full_of (o n z : Bool) : (s.applyFlags (some (.full o n z))).of = o := rfl
@[simp] theorem State.applyFlags_full_sf (o n z : Bool) : (s.applyFlags (some (.full o n z))).sf = n := rfl
@[simp] theorem State.applyFlags_full_zf (o n z : Bool) : (s.applyFlags (some (.full o n z))).zf = z := rfl

/-! Reading a register or a word after writing one -/

theorem Regs.get_set (g : Regs) (q p : Reg) (v : Word) : (g.set q v).get p = if p = q then v else g.get p := by
  cases q <;> cases p <;> rfl

@[simp] theorem State.reg_setReg (q p : Reg) (v : Word) : (s.setReg q v).reg p = if p = q then v else s.reg p :=
  Regs.get_set s.gr q p v

@[simp] theorem State.readMem_writeMem (a b v : Word) :
    (s.writeMem a v).readMem b = if a = b then v else s.readMem b := by
  simp only [State.readMem, State.writeMem, Memory.read_write, BitVec.toNat_inj]

/-- Equal registers are equal data. -/
theorem Regs.eq_of_get {g h : Regs} (e : ∀ q, g.get q = h.get q) : g = h := by
  cases g; cases h
  have h0 := e .gr0; have h1 := e .gr1; have h2 := e .gr2; have h3 := e .gr3; have h4 := e .gr4
  have h5 := e .gr5; have h6 := e .gr6; have h7 := e .gr7; have h8 := e .gr8
  simp only [Regs.get] at h0 h1 h2 h3 h4 h5 h6 h7 h8
  subst_vars
  rfl

/-- A write keeps the memory's canonical form: an address is below 65536 (R53). -/
theorem State.writeMem_wf {s : State} (h : s.mem.wf = true) (a v : Word) : (s.writeMem a v).mem.wf = true :=
  Memory.write_wf h (by unfold memWords; exact a.isLt) v

end Sys2Proof.Machine
end

