-- ==== Sys2Proof/Laws/Operands.lean ====
section
/-! SUPPORT. The laws of the operand forms and of the register check. -/

namespace Sys2Proof.Machine

/-- R23, R74: a field names at most one register, the one with its number. -/
theorem regOfField_eq_some {f : RegField} {q : Reg} : regOfField f = some q ↔ Names f q := by
  unfold Names
  revert f
  cases q <;> decide

/-- R23: the fields 9..15 name no register. -/
theorem regOfField_eq_none {f : RegField} : regOfField f = none ↔ NamesNone f := by
  unfold NamesNone
  revert f
  decide

/-- R76, index register 0. -/
@[simp] theorem State.ea_gr0 (s : State) (adr : Word) : s.ea adr .gr0 = adr := rfl

/-- R76, the other index registers. -/
theorem State.ea_of_ne {s : State} {adr : Word} {x : Reg} (h : x ≠ .gr0) : s.ea adr x = adr + s.reg x := by
  simp [State.ea, h]

/-- R79: a field in range lets the handler run. -/
theorem withReg_of_names {f : RegField} {q : Reg} (h : Names f q) (s : State) (handler : Reg → StepOutcome) :
    withReg f s handler = handler q := by
  simp [withReg, regOfField_eq_some.mpr h]

/-- R79: a field out of range raises InvalidRegister. -/
theorem withReg_of_namesNone {f : RegField} (h : NamesNone f) (s : State) (handler : Reg → StepOutcome) :
    withReg f s handler = .next (s.haltedBy (.invalidRegister s.pr)) := by
  simp only [withReg, regOfField_eq_none.mpr h]
  rfl

/-- R79, two fields in range. -/
theorem withRegs_of_names {f g : RegField} {p q : Reg} (hp : Names f p) (hq : Names g q) (s : State)
    (handler : Reg → Reg → StepOutcome) : withRegs f g s handler = handler p q := by
  rw [withRegs, withReg_of_names hp, withReg_of_names hq]

/-- Every field names a register or none. -/
theorem names_or_namesNone (f : RegField) : (∃ q, Names f q) ∨ NamesNone f := by
  cases h : regOfField f with
  | none => exact .inr (regOfField_eq_none.mp h)
  | some q => exact .inl ⟨q, regOfField_eq_some.mp h⟩

/-- R79, one of two fields out of range. -/
theorem withRegs_of_namesNone {f g : RegField} (h : NamesNone f ∨ NamesNone g) (s : State)
    (handler : Reg → Reg → StepOutcome) :
    withRegs f g s handler = .next (s.haltedBy (.invalidRegister s.pr)) := by
  unfold withRegs
  rcases names_or_namesNone f with ⟨p, hp⟩ | hf
  · rcases h with hf | hg
    · exact withReg_of_namesNone hf s _
    · rw [withReg_of_names hp, withReg_of_namesNone hg]
  · exact withReg_of_namesNone hf s _

/-- What the register check can answer: the handler's answer, or InvalidRegister. -/
theorem withReg_cases (f : RegField) (s : State) (handler : Reg → StepOutcome) :
    (∃ q, Names f q ∧ withReg f s handler = handler q) ∨
    (NamesNone f ∧ withReg f s handler = .next (s.haltedBy (.invalidRegister s.pr))) := by
  rcases names_or_namesNone f with ⟨q, hq⟩ | hf
  · exact .inl ⟨q, hq, withReg_of_names hq s handler⟩
  · exact .inr ⟨hf, withReg_of_namesNone hf s handler⟩

/-- What the check of two fields can answer. -/
theorem withRegs_cases (f g : RegField) (s : State) (handler : Reg → Reg → StepOutcome) :
    (∃ p q, Names f p ∧ Names g q ∧ withRegs f g s handler = handler p q) ∨
    ((NamesNone f ∨ NamesNone g) ∧ withRegs f g s handler = .next (s.haltedBy (.invalidRegister s.pr))) := by
  rcases names_or_namesNone f with ⟨p, hp⟩ | hf
  · rcases names_or_namesNone g with ⟨q, hq⟩ | hg
    · exact .inl ⟨p, q, hp, hq, withRegs_of_names hp hq s handler⟩
    · exact .inr ⟨.inr hg, withRegs_of_namesNone (.inr hg) s handler⟩
  · exact .inr ⟨.inl hf, withRegs_of_namesNone (.inl hf) s handler⟩

end Sys2Proof.Machine
end

