-- ==== Sys2Proof/Laws/Ops.lean ====
section
/-! SUPPORT. The laws of the operations the instructions share: how a step ends, the stack, the console. -/

namespace Sys2Proof.Machine

variable (s : State)

/-- R41, R277: a raise changes the status and nothing else. -/
theorem raise_eq (reason : HaltReason) : raise reason s = .next (s.haltedBy reason) := rfl

/-- R87, R90: the end of a step after Continue. -/
@[simp] theorem complete_continue (shape : Shape) (f : Option FlagTriple) :
    complete shape s (.continue_ f) = .next ((s.applyFlags f).arrive (s.pr + BitVec.ofNat 16 shape.length)) := rfl

/-- R87, R91: the end of a step after Jump. -/
@[simp] theorem complete_jump (shape : Shape) (target : Word) (f : Option FlagTriple) :
    complete shape s (.jump target f) = .next ((s.applyFlags f).arrive target) := rfl

/-- R273: the end of a step after Halt. -/
@[simp] theorem complete_halt (shape : Shape) : complete shape s .halt = .next (s.haltedBy .machineExit) := rfl

/-- Whatever the handler's result, the step answers a next state: it has arrived somewhere, or MachineExit. -/
theorem complete_cases (shape : Shape) (r : HandlerResult) :
    (∃ f p, complete shape s r = .next ((s.applyFlags f).arrive p)) ∨
    (r = .halt ∧ complete shape s r = .next (s.haltedBy .machineExit)) := by
  cases r with
  | continue_ f => exact .inl ⟨f, _, rfl⟩
  | jump target f => exact .inl ⟨f, _, rfl⟩
  | halt => exact .inr ⟨rfl, rfl⟩

/-! The stack: what each operation leaves in the registers and in memory, and that the rest stays. -/

@[simp] theorem State.decSp_reg (p : Reg) : s.decSp.reg p = if p = .gr8 then s.sp - 1 else s.reg p := by
  simp [State.decSp, State.setSp]

@[simp] theorem State.incSp_reg (p : Reg) : s.incSp.reg p = if p = .gr8 then s.sp + 1 else s.reg p := by
  simp [State.incSp, State.setSp]

@[simp] theorem State.decSp_sp : s.decSp.sp = s.sp - 1 := by simp [State.sp]

@[simp] theorem State.incSp_sp : s.incSp.sp = s.sp + 1 := by simp [State.sp]

@[simp] theorem State.pushWord_reg (v : Word) (p : Reg) :
    (s.pushWord v).reg p = if p = .gr8 then s.sp - 1 else s.reg p := by
  simp [State.pushWord]

@[simp] theorem State.pushWord_readMem (v a : Word) :
    (s.pushWord v).readMem a = if s.sp - 1 = a then v else s.readMem a := by
  simp only [State.pushWord, State.readMem_writeMem, State.decSp_sp]
  rfl

@[simp] theorem State.pushReg_reg (q p : Reg) :
    (s.pushReg q).reg p = if p = .gr8 then s.sp - 1 else s.reg p := by
  simp [State.pushReg]

@[simp] theorem State.pushReg_readMem (q : Reg) (a : Word) :
    (s.pushReg q).readMem a = if s.sp - 1 = a then (if q = .gr8 then s.sp - 1 else s.reg q) else s.readMem a := by
  simp only [State.pushReg, State.readMem_writeMem, State.decSp_sp, State.decSp_reg]
  rfl

/-- R221: the register takes the top word and SP moves up; `POP GR8` increments the word it has loaded. -/
@[simp] theorem State.popReg_reg (q p : Reg) :
    (s.popReg q).reg p =
      if p = .gr8 then (if q = .gr8 then s.readMem s.sp + 1 else s.sp + 1)
      else if p = q then s.readMem s.sp else s.reg p := by
  by_cases hp : p = .gr8
  · by_cases hq : q = .gr8
    · simp [State.popReg, State.sp, hp, hq]
    · simp [State.popReg, State.sp, hp, hq, Ne.symm hq]
  · simp [State.popReg, hp]

@[simp] theorem State.popReg_readMem (q : Reg) (a : Word) : (s.popReg q).readMem a = s.readMem a := rfl

/-- The stack operations leave everything but the registers and the memory. -/
theorem State.pushWord_rest (v : Word) :
    (s.pushWord v).pr = s.pr ∧ SameFlags s (s.pushWord v) ∧ (s.pushWord v).level = s.level ∧ (s.pushWord v).steps = s.steps ∧
    (s.pushWord v).status = s.status ∧ SameHost s (s.pushWord v) :=
  ⟨rfl, ⟨rfl, rfl, rfl⟩, rfl, rfl, rfl, rfl, rfl, rfl, rfl, rfl⟩

theorem State.pushReg_rest (q : Reg) :
    (s.pushReg q).pr = s.pr ∧ SameFlags s (s.pushReg q) ∧ (s.pushReg q).level = s.level ∧ (s.pushReg q).steps = s.steps ∧
    (s.pushReg q).status = s.status ∧ SameHost s (s.pushReg q) :=
  ⟨rfl, ⟨rfl, rfl, rfl⟩, rfl, rfl, rfl, rfl, rfl, rfl, rfl, rfl⟩

theorem State.popReg_rest (q : Reg) :
    (s.popReg q).pr = s.pr ∧ SameFlags s (s.popReg q) ∧ (s.popReg q).level = s.level ∧ (s.popReg q).steps = s.steps ∧
    (s.popReg q).status = s.status ∧ SameHost s (s.popReg q) :=
  ⟨rfl, ⟨rfl, rfl, rfl⟩, rfl, rfl, rfl, rfl, rfl, rfl, rfl, rfl⟩

theorem State.pushWord_wf {s : State} (h : s.mem.wf = true) (v : Word) : (s.pushWord v).mem.wf = true :=
  State.writeMem_wf (s := s.decSp) h _ _

theorem State.pushReg_wf {s : State} (h : s.mem.wf = true) (q : Reg) : (s.pushReg q).mem.wf = true :=
  State.writeMem_wf (s := s.decSp) h _ _

theorem State.foldl_pushReg_wf {s : State} (h : s.mem.wf = true) (qs : List Reg) :
    (qs.foldl State.pushReg s).mem.wf = true := by
  induction qs generalizing s with
  | nil => exact h
  | cons q qs ih => exact ih (State.pushReg_wf h q)

theorem State.foldl_popReg_mem (qs : List Reg) : (qs.foldl State.popReg s).mem = s.mem := by
  induction qs generalizing s with
  | nil => rfl
  | cons q qs ih => exact ih (s.popReg q)

/-- Any number of pushes changes the registers and the memory alone. -/
theorem State.foldl_pushReg_eq (qs : List Reg) :
    qs.foldl State.pushReg s =
      { s with gr := (qs.foldl State.pushReg s).gr, mem := (qs.foldl State.pushReg s).mem } := by
  induction qs generalizing s with
  | nil => rfl
  | cons q qs ih => rw [List.foldl_cons, ih (s.pushReg q)]; rfl

/-- Any number of pops changes the registers alone. -/
theorem State.foldl_popReg_eq (qs : List Reg) :
    qs.foldl State.popReg s = { s with gr := (qs.foldl State.popReg s).gr } := by
  induction qs generalizing s with
  | nil => rfl
  | cons q qs ih => rw [List.foldl_cons, ih (s.popReg q)]; rfl

/-! The console -/

/-- Storing characters changes the memory alone. -/
theorem State.storeCodes_eq (buf : Word) (codes : List Nat) :
    s.storeCodes buf codes = { s with mem := (s.storeCodes buf codes).mem } := by
  induction codes generalizing s buf with
  | nil => rfl
  | cons code rest ih => rw [State.storeCodes, ih]; rfl

/-- Storing a line changes the memory alone. -/
theorem State.storeLine_eq (maxChars : Nat) (buf lenadr : Word) (codes : List Nat) :
    s.storeLine maxChars buf lenadr codes = { s with mem := (s.storeLine maxChars buf lenadr codes).mem } := by
  rw [State.storeLine, State.storeCodes_eq]
  rfl

theorem State.storeCodes_wf {s : State} (h : s.mem.wf = true) (buf : Word) (codes : List Nat) :
    (s.storeCodes buf codes).mem.wf = true := by
  induction codes generalizing s buf with
  | nil => exact h
  | cons code rest ih => exact ih (State.writeMem_wf h _ _) (buf + 1)

theorem State.storeLine_wf {s : State} (h : s.mem.wf = true) (maxChars : Nat) (buf lenadr : Word) (codes : List Nat) :
    (s.storeLine maxChars buf lenadr codes).mem.wf = true :=
  State.writeMem_wf (State.storeCodes_wf h buf _) _ _

/-- Successive addresses, counted from the first or from the second. -/
theorem add_ofNat_succ (a : Word) (j : Nat) : a + BitVec.ofNat 16 (j + 1) = (a + 1) + BitVec.ofNat 16 j := by
  rw [BitVec.ofNat_add, BitVec.add_assoc, BitVec.add_comm (BitVec.ofNat 16 j)]
  rfl

/-- Storing characters leaves every word outside the buffer. -/
theorem State.storeCodes_readMem_outside (buf a : Word) (codes : List Nat)
    (h : ∀ i < codes.length, buf + BitVec.ofNat 16 i ≠ a) : (s.storeCodes buf codes).readMem a = s.readMem a := by
  induction codes generalizing s buf with
  | nil => rfl
  | cons code rest ih =>
    have h0 : buf ≠ a := by simpa using h 0 (by simp)
    rw [State.storeCodes, ih]
    · simp [h0]
    · intro i hi
      rw [← add_ofNat_succ]
      exact h (i + 1) (by simpa using hi)

/-- Storing characters leaves the last character an address was given there. -/
theorem State.storeCodes_readMem_last (buf : Word) (codes : List Nat) (i : Nat) (hi : i < codes.length)
    (h : ∀ j, i < j → j < codes.length → buf + BitVec.ofNat 16 j ≠ buf + BitVec.ofNat 16 i) :
    (s.storeCodes buf codes).readMem (buf + BitVec.ofNat 16 i) = u16 codes[i] := by
  induction codes generalizing s buf i with
  | nil => simp at hi
  | cons code rest ih =>
    cases i with
    | zero =>
      rw [State.storeCodes, State.storeCodes_readMem_outside]
      · simp
      · intro j hj
        have := h (j + 1) (by omega) (by simpa using hj)
        rwa [add_ofNat_succ] at this
    | succ i =>
      rw [State.storeCodes, add_ofNat_succ, ih]
      · rfl
      · intro j hj hjl
        rw [← add_ofNat_succ, ← add_ofNat_succ]
        exact h (j + 1) (by omega) (by simpa using hjl)

/-- R252: how many words a line has, and each of them. -/
@[simp] theorem State.readWords_length (buf : Word) (k : Nat) : (s.readWords buf k).length = k := by
  induction k generalizing buf with
  | zero => rfl
  | succ k ih => simp [State.readWords, ih]

theorem State.readWords_getElem (buf : Word) (k i : Nat) (h : i < (s.readWords buf k).length) :
    (s.readWords buf k)[i] = s.readMem (buf + BitVec.ofNat 16 i) := by
  induction k generalizing buf i with
  | zero => simp at h
  | succ k ih =>
    cases i with
    | zero => simp [State.readWords]
    | succ i =>
      simp only [State.readWords, List.getElem_cons_succ]
      rw [ih, add_ofNat_succ]

end Sys2Proof.Machine
end

