-- ==== Sys2Proof/Laws/PerInstr.lean ====
section
/-! SUPPORT. Facts about every instruction as syntax, one lemma per constructor. -/

namespace Sys2Proof.Laws

/-- R71, R77: whatever the parameters that are ok (Params.ok), the encoder writes as many words as the shape is
long, and the opcode byte it writes fixes that length. -/
def EncodedLength.Statement (i : Instr) : Prop :=
  ∀ p : Params, p.ok = true →
    (encode p i).length = i.length ∧ ∀ w1 ∈ (encode p i).head?, opcodeLength p (opcodeByte w1) = i.length

/-- The statement from the words the encoder writes and the row of their opcode byte. -/
theorem EncodedLength.of_row {i : Instr} {row : OpRow} {op : Params → Byte} {high low : RegField} {operands : List Word}
    (hw : ∀ p, encode p i = word1 (op p) high low :: operands) (hn : operands.length + 1 = i.length)
    (hr : ∀ p : Params, p.ok = true → opcodeRow p (op p) = some row) (hs : row.shape = i.shape) :
    EncodedLength.Statement i := by
  intro p hp
  refine ⟨by rw [hw]; exact hn, ?_⟩
  rw [hw]
  intro w1 h
  cases h
  rw [opcodeByte_word1, opcodeLength, hr p hp, Instr.length, ← hs]

/-- The statement for a row with a fixed opcode number. -/
theorem EncodedLength.of_words {i : Instr} {row : OpRow} {op : Byte} {high low : RegField} {operands : List Word}
    (hw : ∀ p, encode p i = word1 op high low :: operands) (hn : operands.length + 1 = i.length)
    (hr : fixedRows.lookup op = some row) (hs : row.shape = i.shape) : EncodedLength.Statement i :=
  EncodedLength.of_row hw hn (fun p _ => opcodeRow_fixed p hr) hs

theorem EncodedLength.ldAdr (r : RegField) (adr : Word) (x : RegField) : EncodedLength.Statement (.ldAdr r adr x) :=
  EncodedLength.of_words (fun _ => rfl) rfl rfl rfl

theorem EncodedLength.st (r : RegField) (adr : Word) (x : RegField) : EncodedLength.Statement (.st r adr x) :=
  EncodedLength.of_words (fun _ => rfl) rfl rfl rfl

theorem EncodedLength.lad (r : RegField) (adr : Word) (x : RegField) : EncodedLength.Statement (.lad r adr x) :=
  EncodedLength.of_words (fun _ => rfl) rfl rfl rfl

theorem EncodedLength.ldReg (r1 r2 : RegField) : EncodedLength.Statement (.ldReg r1 r2) :=
  EncodedLength.of_words (fun _ => rfl) rfl rfl rfl

theorem EncodedLength.addaAdr (r : RegField) (adr : Word) (x : RegField) : EncodedLength.Statement (.addaAdr r adr x) :=
  EncodedLength.of_words (fun _ => rfl) rfl rfl rfl

theorem EncodedLength.subaAdr (r : RegField) (adr : Word) (x : RegField) : EncodedLength.Statement (.subaAdr r adr x) :=
  EncodedLength.of_words (fun _ => rfl) rfl rfl rfl

theorem EncodedLength.addlAdr (r : RegField) (adr : Word) (x : RegField) : EncodedLength.Statement (.addlAdr r adr x) :=
  EncodedLength.of_words (fun _ => rfl) rfl rfl rfl

theorem EncodedLength.sublAdr (r : RegField) (adr : Word) (x : RegField) : EncodedLength.Statement (.sublAdr r adr x) :=
  EncodedLength.of_words (fun _ => rfl) rfl rfl rfl

theorem EncodedLength.addaReg (r1 r2 : RegField) : EncodedLength.Statement (.addaReg r1 r2) :=
  EncodedLength.of_words (fun _ => rfl) rfl rfl rfl

theorem EncodedLength.subaReg (r1 r2 : RegField) : EncodedLength.Statement (.subaReg r1 r2) :=
  EncodedLength.of_words (fun _ => rfl) rfl rfl rfl

theorem EncodedLength.addlReg (r1 r2 : RegField) : EncodedLength.Statement (.addlReg r1 r2) :=
  EncodedLength.of_words (fun _ => rfl) rfl rfl rfl

theorem EncodedLength.sublReg (r1 r2 : RegField) : EncodedLength.Statement (.sublReg r1 r2) :=
  EncodedLength.of_words (fun _ => rfl) rfl rfl rfl

theorem EncodedLength.andAdr (r : RegField) (adr : Word) (x : RegField) : EncodedLength.Statement (.andAdr r adr x) :=
  EncodedLength.of_words (fun _ => rfl) rfl rfl rfl

theorem EncodedLength.orAdr (r : RegField) (adr : Word) (x : RegField) : EncodedLength.Statement (.orAdr r adr x) :=
  EncodedLength.of_words (fun _ => rfl) rfl rfl rfl

theorem EncodedLength.xorAdr (r : RegField) (adr : Word) (x : RegField) : EncodedLength.Statement (.xorAdr r adr x) :=
  EncodedLength.of_words (fun _ => rfl) rfl rfl rfl

theorem EncodedLength.andReg (r1 r2 : RegField) : EncodedLength.Statement (.andReg r1 r2) :=
  EncodedLength.of_words (fun _ => rfl) rfl rfl rfl

theorem EncodedLength.orReg (r1 r2 : RegField) : EncodedLength.Statement (.orReg r1 r2) :=
  EncodedLength.of_words (fun _ => rfl) rfl rfl rfl

theorem EncodedLength.xorReg (r1 r2 : RegField) : EncodedLength.Statement (.xorReg r1 r2) :=
  EncodedLength.of_words (fun _ => rfl) rfl rfl rfl

theorem EncodedLength.cpaAdr (r : RegField) (adr : Word) (x : RegField) : EncodedLength.Statement (.cpaAdr r adr x) :=
  EncodedLength.of_words (fun _ => rfl) rfl rfl rfl

theorem EncodedLength.cplAdr (r : RegField) (adr : Word) (x : RegField) : EncodedLength.Statement (.cplAdr r adr x) :=
  EncodedLength.of_words (fun _ => rfl) rfl rfl rfl

theorem EncodedLength.cpaReg (r1 r2 : RegField) : EncodedLength.Statement (.cpaReg r1 r2) :=
  EncodedLength.of_words (fun _ => rfl) rfl rfl rfl

theorem EncodedLength.cplReg (r1 r2 : RegField) : EncodedLength.Statement (.cplReg r1 r2) :=
  EncodedLength.of_words (fun _ => rfl) rfl rfl rfl

theorem EncodedLength.sla (r : RegField) (adr : Word) (x : RegField) : EncodedLength.Statement (.sla r adr x) :=
  EncodedLength.of_words (fun _ => rfl) rfl rfl rfl

theorem EncodedLength.sra (r : RegField) (adr : Word) (x : RegField) : EncodedLength.Statement (.sra r adr x) :=
  EncodedLength.of_words (fun _ => rfl) rfl rfl rfl

theorem EncodedLength.sll (r : RegField) (adr : Word) (x : RegField) : EncodedLength.Statement (.sll r adr x) :=
  EncodedLength.of_words (fun _ => rfl) rfl rfl rfl

theorem EncodedLength.srl (r : RegField) (adr : Word) (x : RegField) : EncodedLength.Statement (.srl r adr x) :=
  EncodedLength.of_words (fun _ => rfl) rfl rfl rfl

theorem EncodedLength.jmi (adr : Word) (x : RegField) : EncodedLength.Statement (.jmi adr x) :=
  EncodedLength.of_words (fun _ => rfl) rfl rfl rfl

theorem EncodedLength.jnz (adr : Word) (x : RegField) : EncodedLength.Statement (.jnz adr x) :=
  EncodedLength.of_words (fun _ => rfl) rfl rfl rfl

theorem EncodedLength.jze (adr : Word) (x : RegField) : EncodedLength.Statement (.jze adr x) :=
  EncodedLength.of_words (fun _ => rfl) rfl rfl rfl

theorem EncodedLength.jump (adr : Word) (x : RegField) : EncodedLength.Statement (.jump adr x) :=
  EncodedLength.of_words (fun _ => rfl) rfl rfl rfl

theorem EncodedLength.jpl (adr : Word) (x : RegField) : EncodedLength.Statement (.jpl adr x) :=
  EncodedLength.of_words (fun _ => rfl) rfl rfl rfl

theorem EncodedLength.jov (adr : Word) (x : RegField) : EncodedLength.Statement (.jov adr x) :=
  EncodedLength.of_words (fun _ => rfl) rfl rfl rfl

theorem EncodedLength.push (adr : Word) (x : RegField) : EncodedLength.Statement (.push adr x) :=
  EncodedLength.of_words (fun _ => rfl) rfl rfl rfl

theorem EncodedLength.pop (r : RegField) : EncodedLength.Statement (.pop r) :=
  EncodedLength.of_words (fun _ => rfl) rfl rfl rfl

theorem EncodedLength.call (adr : Word) (x : RegField) : EncodedLength.Statement (.call adr x) :=
  EncodedLength.of_words (fun _ => rfl) rfl rfl rfl

theorem EncodedLength.ret : EncodedLength.Statement (.ret) :=
  EncodedLength.of_words (fun _ => rfl) rfl rfl rfl

theorem EncodedLength.input (buf lenadr : Word) : EncodedLength.Statement (.input buf lenadr) :=
  EncodedLength.of_row (fun _ => rfl) rfl (fun _ hp => opcodeRow_opcIn hp) rfl

theorem EncodedLength.output (buf lenadr : Word) : EncodedLength.Statement (.output buf lenadr) :=
  EncodedLength.of_row (fun _ => rfl) rfl (fun _ hp => opcodeRow_opcOut hp) rfl

theorem EncodedLength.rpush : EncodedLength.Statement (.rpush) :=
  EncodedLength.of_row (fun _ => rfl) rfl (fun _ hp => opcodeRow_opcRpush hp) rfl

theorem EncodedLength.rpop : EncodedLength.Statement (.rpop) :=
  EncodedLength.of_row (fun _ => rfl) rfl (fun _ hp => opcodeRow_opcRpop hp) rfl

theorem EncodedLength.svc (adr : Word) (x : RegField) : EncodedLength.Statement (.svc adr x) :=
  EncodedLength.of_words (fun _ => rfl) rfl rfl rfl

end Sys2Proof.Laws
end

