-- ==== Sys2Proof/Tests/Slice0.lean ====
section
/-! SUPPORT. The model's own tests: words written out from the spec's encodings, one step of each instruction with the result the
spec's rule or vector gives (95_test_vectors.md numbers the vectors), and for each statement a state and operands that meet its
hypotheses. -/

namespace Sys2Proof.Tests

open Sys2Proof.Machine

/-- The next state, if there is one. -/
def after : StepOutcome → Option State
  | .next t => some t
  | .fault _ => none
  | .refused _ => none

/-- A machine at 0x0010 with GR0 = 0x5555, the given GR1, GR2 and SP, and the given memory. -/
def machine (gr1 gr2 sp : Word) (mem : Memory) : State :=
  { State.reset with gr := ⟨0x5555, gr1, gr2, 0, 0, 0, 0, 0, sp⟩, pr := 0x0010, mem := mem }

/-- The state after one step on the given words at PR. -/
def ran (words : List Word) (s : State) : Option State := after (step (s.placeWords s.pr words))

/-- OF, SF, ZF. -/
def flags (t : State) : Bool × Bool × Bool := (t.of, t.sf, t.zf)

/-- The machine of the stack tests, inside a call. -/
def called (sp : Word) (mem : Memory) : State := { machine 0 0 sp mem with level := 1, steps := 1, status := .running }

/-! ## Well-formedness (R79): each check refuses a field of 9 and admits 8 -/

theorem test_wfRaxRegister : (Instr.ldAdr 9 0 8).wf = false ∧ (Instr.ldAdr 8 0 8).wf = true := by decide

theorem test_wfRaxIndex : (Instr.st 8 0 9).wf = false ∧ (Instr.st 8 0xFFFF 8).wf = true := by decide

theorem test_wfRrFirst : (Instr.addaReg 15 0).wf = false ∧ (Instr.addaReg 8 0).wf = true := by decide

theorem test_wfRrSecond : (Instr.cplReg 0 10).wf = false ∧ (Instr.cplReg 0 8).wf = true := by decide

theorem test_wfAxIndex : (Instr.jump 0 12).wf = false ∧ (Instr.jump 0 0).wf = true := by decide

theorem test_wfRRegister : (Instr.pop 9).wf = false ∧ (Instr.pop 8).wf = true := by decide

/-! ## Decoding and encoding -/

/-- The words of R72 for the opcodes of R80, with the bits a shape ignores not 0. -/
theorem test_decodeLoadStore :
    decode defaultParams [0b0001000000110101, 0x1234] = .ok (.ldAdr 3 0x1234 5, []) ∧
    decode defaultParams [0b0001000100110101, 0x1234] = .ok (.st 3 0x1234 5, []) ∧
    decode defaultParams [0b0001001000110101, 0x1234] = .ok (.lad 3 0x1234 5, []) ∧
    decode defaultParams [0b0001010001101000] = .ok (.ldReg 6 8, []) := by decide

/-- The words of R72 for the opcodes of R80, with the bits a shape ignores not 0. -/
theorem test_decodeArithmetic :
    decode defaultParams [0b0010000000110101, 0x1234] = .ok (.addaAdr 3 0x1234 5, []) ∧
    decode defaultParams [0b0010000100110101, 0x1234] = .ok (.subaAdr 3 0x1234 5, []) ∧
    decode defaultParams [0b0010001000110101, 0x1234] = .ok (.addlAdr 3 0x1234 5, []) ∧
    decode defaultParams [0b0010001100110101, 0x1234] = .ok (.sublAdr 3 0x1234 5, []) ∧
    decode defaultParams [0b0010010001101000] = .ok (.addaReg 6 8, []) ∧
    decode defaultParams [0b0010010101101000] = .ok (.subaReg 6 8, []) ∧
    decode defaultParams [0b0010011001101000] = .ok (.addlReg 6 8, []) ∧
    decode defaultParams [0b0010011101101000] = .ok (.sublReg 6 8, []) := by decide

/-- The words of R72 for the opcodes of R80, with the bits a shape ignores not 0. -/
theorem test_decodeBitwise :
    decode defaultParams [0b0011000000110101, 0x1234] = .ok (.andAdr 3 0x1234 5, []) ∧
    decode defaultParams [0b0011000100110101, 0x1234] = .ok (.orAdr 3 0x1234 5, []) ∧
    decode defaultParams [0b0011001000110101, 0x1234] = .ok (.xorAdr 3 0x1234 5, []) ∧
    decode defaultParams [0b0011010001101000] = .ok (.andReg 6 8, []) ∧
    decode defaultParams [0b0011010101101000] = .ok (.orReg 6 8, []) ∧
    decode defaultParams [0b0011011001101000] = .ok (.xorReg 6 8, []) := by decide

/-- The words of R72 for the opcodes of R80, with the bits a shape ignores not 0. -/
theorem test_decodeCompare :
    decode defaultParams [0b0100000000110101, 0x1234] = .ok (.cpaAdr 3 0x1234 5, []) ∧
    decode defaultParams [0b0100000100110101, 0x1234] = .ok (.cplAdr 3 0x1234 5, []) ∧
    decode defaultParams [0b0100010001101000] = .ok (.cpaReg 6 8, []) ∧
    decode defaultParams [0b0100010101101000] = .ok (.cplReg 6 8, []) := by decide

/-- The words of R72 for the opcodes of R80, with the bits a shape ignores not 0. -/
theorem test_decodeShift :
    decode defaultParams [0b0101000000110101, 0x1234] = .ok (.sla 3 0x1234 5, []) ∧
    decode defaultParams [0b0101000100110101, 0x1234] = .ok (.sra 3 0x1234 5, []) ∧
    decode defaultParams [0b0101001000110101, 0x1234] = .ok (.sll 3 0x1234 5, []) ∧
    decode defaultParams [0b0101001100110101, 0x1234] = .ok (.srl 3 0x1234 5, []) := by decide

/-- The words of R72 for the opcodes of R80, with the bits a shape ignores not 0. -/
theorem test_decodeBranch :
    decode defaultParams [0b0110000111110111, 0x1234] = .ok (.jmi 0x1234 7, []) ∧
    decode defaultParams [0b0110001011110111, 0x1234] = .ok (.jnz 0x1234 7, []) ∧
    decode defaultParams [0b0110001111110111, 0x1234] = .ok (.jze 0x1234 7, []) ∧
    decode defaultParams [0b0110010011110111, 0x1234] = .ok (.jump 0x1234 7, []) ∧
    decode defaultParams [0b0110010111110111, 0x1234] = .ok (.jpl 0x1234 7, []) ∧
    decode defaultParams [0b0110011011110111, 0x1234] = .ok (.jov 0x1234 7, []) := by decide

/-- The words of R72 for the opcodes of R80, with the bits a shape ignores not 0. -/
theorem test_decodeStackCall :
    decode defaultParams [0b0111000011110111, 0x1234] = .ok (.push 0x1234 7, []) ∧
    decode defaultParams [0b0111000101001111] = .ok (.pop 4, []) ∧
    decode defaultParams [0b1000000011110111, 0x1234] = .ok (.call 0x1234 7, []) ∧
    decode defaultParams [0b1000000110100101] = .ok (.ret, []) ∧
    decode defaultParams [0b1010000010100101] = .ok (.rpush, []) ∧
    decode defaultParams [0b1010000110100101] = .ok (.rpop, []) := by decide

/-- The words of R72 for the opcodes of R80, with the bits a shape ignores not 0. -/
theorem test_decodeSystemIo :
    decode defaultParams [0b1001000001011010, 0x1234, 0x5678] = .ok (.input 0x1234 0x5678, []) ∧
    decode defaultParams [0b1001000101011010, 0x1234, 0x5678] = .ok (.output 0x1234 0x5678, []) ∧
    decode defaultParams [0b1111000011110111, 0x1234] = .ok (.svc 0x1234 7, []) := by decide

theorem test_encodeLoadStore :
    encode defaultParams (.ldAdr 3 0x1234 5) = [0x1035, 0x1234] ∧ encode defaultParams (.st 3 0x1234 5) = [0x1135, 0x1234] ∧ encode defaultParams (.lad 3 0x1234 5) = [0x1235, 0x1234] ∧ encode defaultParams (.ldReg 6 8) = [0x1468] := by decide

theorem test_encodeArithmetic :
    encode defaultParams (.addaAdr 3 0x1234 5) = [0x2035, 0x1234] ∧ encode defaultParams (.subaAdr 3 0x1234 5) = [0x2135, 0x1234] ∧ encode defaultParams (.addlAdr 3 0x1234 5) = [0x2235, 0x1234] ∧ encode defaultParams (.sublAdr 3 0x1234 5) = [0x2335, 0x1234] ∧ encode defaultParams (.addaReg 6 8) = [0x2468] ∧ encode defaultParams (.subaReg 6 8) = [0x2568] ∧ encode defaultParams (.addlReg 6 8) = [0x2668] ∧ encode defaultParams (.sublReg 6 8) = [0x2768] := by decide

theorem test_encodeBitwise :
    encode defaultParams (.andAdr 3 0x1234 5) = [0x3035, 0x1234] ∧ encode defaultParams (.orAdr 3 0x1234 5) = [0x3135, 0x1234] ∧ encode defaultParams (.xorAdr 3 0x1234 5) = [0x3235, 0x1234] ∧ encode defaultParams (.andReg 6 8) = [0x3468] ∧ encode defaultParams (.orReg 6 8) = [0x3568] ∧ encode defaultParams (.xorReg 6 8) = [0x3668] := by decide

theorem test_encodeCompare :
    encode defaultParams (.cpaAdr 3 0x1234 5) = [0x4035, 0x1234] ∧ encode defaultParams (.cplAdr 3 0x1234 5) = [0x4135, 0x1234] ∧ encode defaultParams (.cpaReg 6 8) = [0x4468] ∧ encode defaultParams (.cplReg 6 8) = [0x4568] := by decide

theorem test_encodeShift :
    encode defaultParams (.sla 3 0x1234 5) = [0x5035, 0x1234] ∧ encode defaultParams (.sra 3 0x1234 5) = [0x5135, 0x1234] ∧ encode defaultParams (.sll 3 0x1234 5) = [0x5235, 0x1234] ∧ encode defaultParams (.srl 3 0x1234 5) = [0x5335, 0x1234] := by decide

theorem test_encodeBranch :
    encode defaultParams (.jmi 0x1234 7) = [0x6107, 0x1234] ∧ encode defaultParams (.jnz 0x1234 7) = [0x6207, 0x1234] ∧ encode defaultParams (.jze 0x1234 7) = [0x6307, 0x1234] ∧ encode defaultParams (.jump 0x1234 7) = [0x6407, 0x1234] ∧ encode defaultParams (.jpl 0x1234 7) = [0x6507, 0x1234] ∧ encode defaultParams (.jov 0x1234 7) = [0x6607, 0x1234] := by decide

theorem test_encodeStackCall :
    encode defaultParams (.push 0x1234 7) = [0x7007, 0x1234] ∧ encode defaultParams (.pop 4) = [0x7140] ∧ encode defaultParams (.call 0x1234 7) = [0x8007, 0x1234] ∧ encode defaultParams .ret = [0x8100] ∧ encode defaultParams .rpush = [0xA000] ∧ encode defaultParams .rpop = [0xA100] := by decide

theorem test_encodeSystemIo :
    encode defaultParams (.input 0x1234 0x5678) = [0x9000, 0x1234, 0x5678] ∧ encode defaultParams (.output 0x1234 0x5678) = [0x9100, 0x1234, 0x5678] ∧ encode defaultParams (.svc 0x1234 7) = [0xF007, 0x1234] := by decide

/-- R82, R83: no entry for 0x00, 0x13 and 0xFF (vectors V5 to V7). -/
theorem test_decodeUnknown :
    decode defaultParams [0x00FF] = .error (.unknownOpcode 0x00) ∧ decode defaultParams [0x13FF] = .error (.unknownOpcode 0x13) ∧
    decode defaultParams [0xFFFF] = .error (.unknownOpcode 0xFF) := by decide

/-- The opcode table's first words, two-word rows with their operand word, as spec/opcode_table.json numbers their bits. -/
theorem test_decodeTableWord :
    decodeTableWord 32 0x12341035 = some (.ldAdr 3 0x1234 5) ∧ decodeTableWord 16 0x2468 = some (.addaReg 6 8) ∧
    decodeTableWord 48 0x567812349000 = some (.input 0x1234 0x5678) ∧ decodeTableWord 8 0x8100 = none := by decide

/-- Each row's word runs as the first instruction after reset. -/
theorem test_firstInstructionLoadStore :
    ∀ row ∈ [(32, 0x1000), (32, 0x1100), (32, 0x1200), (16, 0x1400)],
      (after (step (State.reset.withFetchWord row.1 row.2))).isSome = true := by decide

/-- Each row's word runs as the first instruction after reset. -/
theorem test_firstInstructionArithmetic :
    ∀ row ∈ [(32, 0x2000), (32, 0x2100), (32, 0x2200), (32, 0x2300), (16, 0x2400), (16, 0x2500), (16, 0x2600), (16, 0x2700)],
      (after (step (State.reset.withFetchWord row.1 row.2))).isSome = true := by decide

/-- Each row's word runs as the first instruction after reset. -/
theorem test_firstInstructionBitwise :
    ∀ row ∈ [(32, 0x3000), (32, 0x3100), (32, 0x3200), (16, 0x3400), (16, 0x3500), (16, 0x3600)],
      (after (step (State.reset.withFetchWord row.1 row.2))).isSome = true := by decide

/-- Each row's word runs as the first instruction after reset. -/
theorem test_firstInstructionCompare :
    ∀ row ∈ [(32, 0x4000), (32, 0x4100), (16, 0x4400), (16, 0x4500)],
      (after (step (State.reset.withFetchWord row.1 row.2))).isSome = true := by decide

/-- Each row's word runs as the first instruction after reset. -/
theorem test_firstInstructionShift :
    ∀ row ∈ [(32, 0x5000), (32, 0x5100), (32, 0x5200), (32, 0x5300)],
      (after (step (State.reset.withFetchWord row.1 row.2))).isSome = true := by decide

/-- Each row's word runs as the first instruction after reset. -/
theorem test_firstInstructionBranch :
    ∀ row ∈ [(32, 0x6100), (32, 0x6200), (32, 0x6300), (32, 0x6400), (32, 0x6500), (32, 0x6600)],
      (after (step (State.reset.withFetchWord row.1 row.2))).isSome = true := by decide

/-- Each row's word runs as the first instruction after reset. -/
theorem test_firstInstructionStackCall :
    ∀ row ∈ [(32, 0x7000), (16, 0x7100), (32, 0x8000), (16, 0x8100), (16, 0xA000), (16, 0xA100)],
      (after (step (State.reset.withFetchWord row.1 row.2))).isSome = true := by decide

/-- Each row's word runs as the first instruction after reset. -/
theorem test_firstInstructionSystemIo :
    ∀ row ∈ [(48, 0x9000), (48, 0x9100), (32, 0xF000)],
      (after (step (State.reset.withFetchWord row.1 row.2))).isSome = true := by decide

/-! ## The parameters (R4) -/

/-- The opcode parameters may be exchanged or moved to a free byte, and not share a byte with each other or with a fixed row,
nor be 0x00 (R83). -/
theorem test_paramsOk :
    defaultParams.ok = true ∧ { defaultParams with opcIn := 0x91, opcOut := 0x90 : Params }.ok = true ∧
    { defaultParams with opcRpop := 0x13 : Params }.ok = true ∧ { defaultParams with opcRpop := 0x00 : Params }.ok = false ∧
    { defaultParams with opcRpop := 0x90 : Params }.ok = false ∧
    { defaultParams with opcIn := 0x10 : Params }.ok = false := by decide

/-- R83: no value of `OPC_*` gives 0x00 a row; a fetch of it is InvalidOperation (V5, E4). -/
theorem test_opcodeZeroHasNoRow :
    decode { defaultParams with opcRpush := 0x00 : Params } [0x00FF] = .error (.unknownOpcode 0x00) ∧
    (after (step { State.reset with params := ⟨.masked, 0x00, 0x91, 0xA0, 0xA1⟩ })).map (fun t => t.status) =
      some (.halted (.invalidOperation 0)) := by decide

/-- R80: with other values of `OPC_*` other words are the four instructions, and the defaults' words are none. -/
theorem test_otherOpcodes :
    (let p : Params := ⟨.masked, 0x01, 0x02, 0x03, 0x04⟩
     decode p [0x01FF, 0x1234, 0x5678] = .ok (.input 0x1234 0x5678, []) ∧ decode p [0x0200, 1, 2] = .ok (.output 1 2, []) ∧
     decode p [0x0300] = .ok (.rpush, []) ∧ decode p [0x0400] = .ok (.rpop, []) ∧ encode p .rpop = [0x0400] ∧
     decode p [0xA000] = .error (.unknownOpcode 0xA0) ∧ decode p [0x2468] = .ok (.addaReg 6 8, [])) := by decide

/-- A step fetches under the state's own parameters: 0x0300 is RPUSH, and 0xA000 is nothing. -/
theorem test_stepOtherOpcodes :
    (let s : State := { machine 0 0 0x0100 [] with params := ⟨.masked, 0x01, 0x02, 0x03, 0x04⟩ }
     (ran [0x0300] s).map (fun t => t.sp) = some 0x00F8 ∧
     (ran [0xA000] s).map (fun t => t.status) = some (.halted (.invalidOperation 0x0010))) := by decide

/-- The machine of the tests under `ZF_BASIS` = unmasked. -/
def unmasked (gr1 gr2 : Word) : State :=
  { machine gr1 gr2 0x0100 [] with params := { defaultParams with zfBasis := .unmasked } }

/-- Vectors A4, A3 and A14, unmasked, through a step. -/
theorem test_unmaskedAdd :
    (ran [0x2412] (unmasked 0x8000 0x8000)).map (fun t => (t.gr.gr1, flags t)) = some (0, (true, false, false)) ∧
    (ran [0x2412] (unmasked 0xFFFF 0x0001)).map (fun t => (t.gr.gr1, flags t)) = some (0, (false, false, true)) ∧
    (ran [0x2612] (unmasked 0xFFFF 0x0001)).map (fun t => (t.gr.gr1, flags t)) = some (0, (true, false, false)) := by decide

/-- Vectors A10 and A20, unmasked. -/
theorem test_unmaskedSubtract :
    (ran [0x2512] (unmasked 0x0000 0x0000)).map (fun t => flags t) = some (false, false, true) ∧
    (ran [0x2712] (unmasked 0x0005 0x0005)).map (fun t => flags t) = some (false, false, true) := by decide

/-! ## One step of each instruction -/

/-- Vector L1. -/
theorem test_ldAdr :
    (ran [0x1010, 0x0100] (machine 0 0 0x0100 [(0x0100, 0x8000)])).map (fun t => (t.gr.gr1, flags t, t.pr)) = some (0x8000, (false, true, false), 0x0012) := by decide

/-- Vector L3: EA from the old GR1. -/
theorem test_ldAdr_ownIndex :
    (ran [0x1011, 0x0000] (machine 0x0100 0 0x0100 [(0x0100, 7)])).map (fun t => (t.gr.gr1, flags t)) = some (7, (false, false, false)) := by decide

/-- Vector L2. -/
theorem test_ldReg :
    (ran [0x1412] (machine 5 0 0x0100 [])).map (fun t => (t.gr.gr1, flags t, t.pr)) = some (0, (false, false, true), 0x0011) := by decide

/-- Vector L8: LD GR8 writes SP. -/
theorem test_ldReg_sp :
    (ran [0x1481] (machine 0x0200 0 0x0100 [])).map (fun t => (t.sp, flags t)) = some (0x0200, (false, false, false)) := by decide

/-- Vector L4. -/
theorem test_st :
    (ran [0x1112, 0x0100] (machine 0x1234 2 0x0100 [])).map (fun t => (t.readMem 0x0102, flags t, t.pr)) = some (0x1234, (false, false, true), 0x0012) := by decide

/-- Vector L5: a store to its own operand word. -/
theorem test_st_ownOperand :
    (ran [0x1110, 0x0011] (machine 0x0020 0 0x0100 [])).map (fun t => (t.readMem 0x0011, t.pr)) = some (0x0020, 0x0012) := by decide

/-- Vector L6 with GR1: the sum wraps and no flag changes. -/
theorem test_lad :
    (ran [0x1211, 0x0002] (machine 0xFFFF 0 0x0100 [])).map (fun t => (t.gr.gr1, flags t)) = some (0x0001, (false, false, true)) := by decide

/-- Vector EA1: index 0 does not use GR0. -/
theorem test_lad_indexZero :
    (ran [0x1210, 0x1234] (machine 0 0 0x0100 [])).map (fun t => t.gr.gr1) = some 0x1234 := by decide

/-- Vector A4, masked. -/
theorem test_addaAdr :
    (ran [0x2012, 0x0100] (machine 0x8000 3 0x0100 [(0x0103, 0x8000)])).map (fun t => (t.gr.gr1, flags t, t.pr)) = some (0x0000, (true, false, true), 0x0012) := by decide

/-- Vector A1. -/
theorem test_addaReg :
    (ran [0x2412] (machine 0x7FFF 0x0001 0x0100 [])).map (fun t => (t.gr.gr1, t.gr.gr2, flags t, t.pr)) = some (0x8000, 0x0001, (true, true, false), 0x0011) := by decide

/-- Vector A8. -/
theorem test_subaAdr :
    (ran [0x2112, 0x0100] (machine 0x8000 3 0x0100 [(0x0103, 0x0001)])).map (fun t => (t.gr.gr1, flags t, t.pr)) = some (0x7FFF, (true, false, false), 0x0012) := by decide

/-- Vector A12. -/
theorem test_subaReg :
    (ran [0x2512] (machine 0x0000 0x8000 0x0100 [])).map (fun t => (t.gr.gr1, t.gr.gr2, flags t, t.pr)) = some (0x8000, 0x8000, (true, true, false), 0x0011) := by decide

/-- Vector A14, masked. -/
theorem test_addlAdr :
    (ran [0x2212, 0x0100] (machine 0xFFFF 3 0x0100 [(0x0103, 0x0001)])).map (fun t => (t.gr.gr1, flags t, t.pr)) = some (0x0000, (true, false, true), 0x0012) := by decide

/-- Vector A16. -/
theorem test_addlReg :
    (ran [0x2612] (machine 0x7FFF 0x0001 0x0100 [])).map (fun t => (t.gr.gr1, t.gr.gr2, flags t, t.pr)) = some (0x8000, 0x0001, (false, true, false), 0x0011) := by decide

/-- Vector A19. -/
theorem test_sublAdr :
    (ran [0x2312, 0x0100] (machine 0x0000 3 0x0100 [(0x0103, 0x0001)])).map (fun t => (t.gr.gr1, flags t, t.pr)) = some (0xFFFF, (true, true, false), 0x0012) := by decide

/-- Vector A22. -/
theorem test_sublReg :
    (ran [0x2712] (machine 0x0001 0xFFFF 0x0100 [])).map (fun t => (t.gr.gr1, t.gr.gr2, flags t, t.pr)) = some (0x0002, 0xFFFF, (true, false, false), 0x0011) := by decide

/-- Vector A24. -/
theorem test_andAdr :
    (ran [0x3012, 0x0100] (machine 0xFF00 3 0x0100 [(0x0103, 0x0FF0)])).map (fun t => (t.gr.gr1, flags t, t.pr)) = some (0x0F00, (false, false, false), 0x0012) := by decide

/-- Vector A26. -/
theorem test_andReg :
    (ran [0x3412] (machine 0x8001 0x8000 0x0100 [])).map (fun t => (t.gr.gr1, t.gr.gr2, flags t, t.pr)) = some (0x8000, 0x8000, (false, true, false), 0x0011) := by decide

/-- Vector A27. -/
theorem test_orAdr :
    (ran [0x3112, 0x0100] (machine 0xFF00 3 0x0100 [(0x0103, 0x00FF)])).map (fun t => (t.gr.gr1, flags t, t.pr)) = some (0xFFFF, (false, true, false), 0x0012) := by decide

/-- Vector A29. -/
theorem test_orReg :
    (ran [0x3512] (machine 0x1200 0x0034 0x0100 [])).map (fun t => (t.gr.gr1, t.gr.gr2, flags t, t.pr)) = some (0x1234, 0x0034, (false, false, false), 0x0011) := by decide

/-- Vector A32. -/
theorem test_xorAdr :
    (ran [0x3212, 0x0100] (machine 0x0F0F 3 0x0100 [(0x0103, 0xFFFF)])).map (fun t => (t.gr.gr1, flags t, t.pr)) = some (0xF0F0, (false, true, false), 0x0012) := by decide

/-- Vector A30. -/
theorem test_xorReg :
    (ran [0x3612] (machine 0xFFFF 0xFFFF 0x0100 [])).map (fun t => (t.gr.gr1, t.gr.gr2, flags t, t.pr)) = some (0x0000, 0xFFFF, (false, false, true), 0x0011) := by decide

/-- Vector A33: the sign of the exact difference. -/
theorem test_cpaAdr :
    (ran [0x4012, 0x0100] (machine 0x8000 3 0x0100 [(0x0103, 0x0001)])).map (fun t => (t.gr.gr1, flags t, t.pr)) = some (0x8000, (false, true, false), 0x0012) := by decide

/-- Vector A34. -/
theorem test_cpaReg :
    (ran [0x4412] (machine 0x0001 0x8000 0x0100 [])).map (fun t => (t.gr.gr1, t.gr.gr2, flags t, t.pr)) = some (0x0001, 0x8000, (false, false, false), 0x0011) := by decide

/-- Vector A39. -/
theorem test_cplAdr :
    (ran [0x4112, 0x0100] (machine 0x8000 3 0x0100 [(0x0103, 0x0001)])).map (fun t => (t.gr.gr1, flags t, t.pr)) = some (0x8000, (false, false, false), 0x0012) := by decide

/-- Vector A40. -/
theorem test_cplReg :
    (ran [0x4512] (machine 0x0001 0x8000 0x0100 [])).map (fun t => (t.gr.gr1, t.gr.gr2, flags t, t.pr)) = some (0x0001, 0x8000, (false, true, false), 0x0011) := by decide

/-- Vector A45. -/
theorem test_addaReg_sameRegister :
    (ran [0x2411] (machine 0x4000 0 0x0100 [])).map (fun t => (t.gr.gr1, flags t)) = some (0x8000, (true, true, false)) := by decide

/-- Vector A46. -/
theorem test_sublReg_sameRegister :
    (ran [0x2711] (machine 0x1234 0 0x0100 [])).map (fun t => (t.gr.gr1, flags t)) = some (0, (false, false, true)) := by decide

/-- Vector S5. -/
theorem test_sla :
    (ran [0x5010, 0x000F] (machine 0x8001 0 0x0100 [])).map (fun t => (t.gr.gr1, flags t, t.pr)) = some (0x8000, (true, true, false), 0x0012) := by decide

/-- Vector S14. -/
theorem test_sla_pastTheEnd :
    (ran [0x5010, 0x0010] (machine 0x7FFF 0 0x0100 [])).map (fun t => (t.gr.gr1, flags t, t.pr)) = some (0x0000, (false, false, true), 0x0012) := by decide

/-- Vector S25. -/
theorem test_sra :
    (ran [0x5110, 0x0002] (machine 0x8001 0 0x0100 [])).map (fun t => (t.gr.gr1, flags t, t.pr)) = some (0xE000, (false, true, false), 0x0012) := by decide

/-- Vector S29. -/
theorem test_sra_pastTheEnd :
    (ran [0x5110, 0x0011] (machine 0x8001 0 0x0100 [])).map (fun t => (t.gr.gr1, flags t, t.pr)) = some (0xFFFF, (true, true, false), 0x0012) := by decide

/-- Vector S50. -/
theorem test_sll :
    (ran [0x5210, 0x0010] (machine 0x8001 0 0x0100 [])).map (fun t => (t.gr.gr1, flags t, t.pr)) = some (0x0000, (true, false, true), 0x0012) := by decide

/-- Vector S68. -/
theorem test_srl :
    (ran [0x5310, 0x0001] (machine 0x8001 0 0x0100 [])).map (fun t => (t.gr.gr1, flags t, t.pr)) = some (0x4000, (true, false, false), 0x0012) := by decide

/-- Vector S67. -/
theorem test_srl_byZero :
    (ran [0x5310, 0x0000] (machine 0x8001 0 0x0100 [])).map (fun t => (t.gr.gr1, flags t, t.pr)) = some (0x8001, (false, true, false), 0x0012) := by decide

/-- Vector S89: the amount is the old GR1. -/
theorem test_sll_ownIndex :
    (ran [0x5211, 0x0000] (machine 3 0 0x0100 [])).map (fun t => t.gr.gr1) = some 0x0018 := by decide

/-- The row OF, SF, ZF = 0 1 0 of the table of branches, `JMI #0040`. -/
theorem test_jmi :
    (ran [0x6100, 0x0040] { machine 0 0 0x0100 [] with of := false, sf := true, zf := false }).map (fun t => (t.pr, flags t)) = some (0x0040, (false, true, false)) := by decide

/-- The row OF, SF, ZF = 0 0 1 of the table of branches, `JMI #0040`. -/
theorem test_jmi_notTaken :
    (ran [0x6100, 0x0040] { machine 0 0 0x0100 [] with of := false, sf := false, zf := true }).map (fun t => (t.pr, flags t)) = some (0x0012, (false, false, true)) := by decide

/-- The row OF, SF, ZF = 0 0 0 of the table of branches, `JNZ #0040`. -/
theorem test_jnz :
    (ran [0x6200, 0x0040] { machine 0 0 0x0100 [] with of := false, sf := false, zf := false }).map (fun t => (t.pr, flags t)) = some (0x0040, (false, false, false)) := by decide

/-- The row OF, SF, ZF = 0 0 1 of the table of branches, `JNZ #0040`. -/
theorem test_jnz_notTaken :
    (ran [0x6200, 0x0040] { machine 0 0 0x0100 [] with of := false, sf := false, zf := true }).map (fun t => (t.pr, flags t)) = some (0x0012, (false, false, true)) := by decide

/-- The row OF, SF, ZF = 0 0 1 of the table of branches, `JZE #0040`. -/
theorem test_jze :
    (ran [0x6300, 0x0040] { machine 0 0 0x0100 [] with of := false, sf := false, zf := true }).map (fun t => (t.pr, flags t)) = some (0x0040, (false, false, true)) := by decide

/-- The row OF, SF, ZF = 0 1 0 of the table of branches, `JZE #0040`. -/
theorem test_jze_notTaken :
    (ran [0x6300, 0x0040] { machine 0 0 0x0100 [] with of := false, sf := true, zf := false }).map (fun t => (t.pr, flags t)) = some (0x0012, (false, true, false)) := by decide

/-- The row OF, SF, ZF = 0 0 0 of the table of branches, `JUMP #0040`. -/
theorem test_jump :
    (ran [0x6400, 0x0040] { machine 0 0 0x0100 [] with of := false, sf := false, zf := false }).map (fun t => (t.pr, flags t)) = some (0x0040, (false, false, false)) := by decide

/-- The row OF, SF, ZF = 1 1 1 of the table of branches, `JUMP #0040`. -/
theorem test_jump_taken :
    (ran [0x6400, 0x0040] { machine 0 0 0x0100 [] with of := true, sf := true, zf := true }).map (fun t => (t.pr, flags t)) = some (0x0040, (true, true, true)) := by decide

/-- The row OF, SF, ZF = 0 0 0 of the table of branches, `JPL #0040`. -/
theorem test_jpl :
    (ran [0x6500, 0x0040] { machine 0 0 0x0100 [] with of := false, sf := false, zf := false }).map (fun t => (t.pr, flags t)) = some (0x0040, (false, false, false)) := by decide

/-- The row OF, SF, ZF = 0 0 1 of the table of branches, `JPL #0040`. -/
theorem test_jpl_notTaken :
    (ran [0x6500, 0x0040] { machine 0 0 0x0100 [] with of := false, sf := false, zf := true }).map (fun t => (t.pr, flags t)) = some (0x0012, (false, false, true)) := by decide

/-- The row OF, SF, ZF = 1 0 0 of the table of branches, `JOV #0040`. -/
theorem test_jov :
    (ran [0x6600, 0x0040] { machine 0 0 0x0100 [] with of := true, sf := false, zf := false }).map (fun t => (t.pr, flags t)) = some (0x0040, (true, false, false)) := by decide

/-- The row OF, SF, ZF = 0 1 1 of the table of branches, `JOV #0040`. -/
theorem test_jov_notTaken :
    (ran [0x6600, 0x0040] { machine 0 0 0x0100 [] with of := false, sf := true, zf := true }).map (fun t => (t.pr, flags t)) = some (0x0012, (false, true, true)) := by decide

/-- Vector B9. -/
theorem test_jump_wraps :
    (ran [0x6401, 0x0002] (machine 0xFFFF 0 0x0100 [])).map (fun t => (t.pr, t.steps, t.status)) = some (0x0001, 1, Status.running) := by decide

/-- Vector K12: the address, not what it holds. -/
theorem test_push :
    (ran [0x7000, 0x0100] (machine 0 0 0x0200 [(0x0100, 0x9999)])).map (fun t => (t.sp, t.readMem 0x01FF, t.readMem 0x0100)) = some (0x01FF, 0x0100, 0x9999) := by decide

/-- Vector K1: the old SP. -/
theorem test_push_sp :
    (ran [0x7008, 0x0000] (machine 0 0 0x0100 [])).map (fun t => (t.sp, t.readMem 0x00FF)) = some (0x00FF, 0x0100) := by decide

/-- Vector K4: SP wraps. -/
theorem test_pop :
    (ran [0x7110] (machine 0 0 0xFFFF [(0xFFFF, 0x00AB)])).map (fun t => (t.gr.gr1, t.sp, flags t)) = some (0x00AB, 0x0000, (false, false, true)) := by decide

/-- Vector K3. -/
theorem test_pop_sp :
    (ran [0x7180] (machine 0 0 0x00FF [(0x00FF, 0x1234)])).map (fun t => t.sp) = some 0x1235 := by decide

/-- Vector K5 at 0x0010. -/
theorem test_call :
    (ran [0x8008, 0x0010] (machine 0 0 0x0100 [])).map (fun t => (t.pr, t.sp, t.readMem 0x00FF, t.level)) = some (0x0110, 0x00FF, 0x0010, 1) := by decide

/-- Vector K8. -/
theorem test_ret :
    (ran [0x8100] (called 0x00FE [(0x00FE, 0x0040)])).map (fun t => (t.pr, t.sp, t.level)) = some (0x0042, 0x00FF, 0) := by decide

/-- Vector K7. -/
theorem test_ret_endsTheProgram :
    (ran [0x8100] (machine 0 0 0x0100 [])).map (fun t => (t.pr, t.sp, t.steps, t.status)) = some (0x0010, 0x0100, 0, Status.halted .machineExit) := by decide

/-- Vector K9: the stack wraps at 0, and the eighth word is SP's own value. -/
theorem test_rpush :
    (ran [0xA000] { machine 0x11 0x22 0x0004 [] with gr := ⟨0x5555, 0x11, 0x22, 0x33, 0x44, 0x55, 0x66, 0x77, 0x0004⟩ }).map
        (fun t => (t.sp, t.mem)) =
      some (0xFFFC, [(0, 0x44), (1, 0x33), (2, 0x22), (3, 0x11), (0x0010, 0xA000), (0xFFFC, 0xFFFC), (0xFFFD, 0x77),
        (0xFFFE, 0x66), (0xFFFF, 0x55)]) := by decide

/-- Vector K10: RPOP follows the word at SP. -/
theorem test_rpop :
    (ran [0xA100] (machine 0 0 0x0100 [(0x0100, 0x0200), (0x0201, 0x0A), (0x0202, 0x0B), (0x0203, 0x0C), (0x0204, 0x0D),
        (0x0205, 0x0E), (0x0206, 0x0F), (0x0207, 0x10)])).map (fun t => t.gr) =
      some ⟨0x5555, 0x10, 0x0F, 0x0E, 0x0D, 0x0C, 0x0B, 0x0A, 0x0208⟩ := by decide

/-- Vector Y1. -/
theorem test_svc :
    ran [0xF000, 0x0001] (machine 7 0 0x0100 []) =
      some { machine 7 0 0x0100 [(0x0010, 0xF000), (0x0011, 0x0001)] with steps := 1, status := .running } := by decide

/-- Vectors Y3, Y5 and Y6, with the bound given: a line is cut at the bound, and the count is written last. -/
theorem test_input_storesTheLine :
    ((machine 0 0 0 []).storeLine 255 0x0100 0x0200 [0x41, 0x42]).mem = [(0x0100, 0x41), (0x0101, 0x42), (0x0200, 2)] ∧
    ((machine 0 0 0 []).storeLine 1 0x0100 0x0200 [0x41, 0x42]).mem = [(0x0100, 0x41), (0x0200, 1)] ∧
    ((machine 0 0 0 []).storeLine 255 0x0100 0x0100 [0x41, 0x42]).mem = [(0x0100, 2), (0x0101, 0x42)] := by decide

/-- R253: an IN that a line answers goes on, whether the host listed the line or it is a free one; one that nothing answers is
stuck. -/
theorem test_input :
    (ran [0x9000, 0x0100, 0x0200] { machine 0 0 0 [] with consoleIn := [.line [0x41]] }).isSome = true ∧
    (ran [0x9000, 0x0100, 0x0200] (machine 0 0 0 [])).isSome = true ∧
    (ran [0x9000, 0x0100, 0x0200] { machine 0 0 0 [] with consoleIn := [.never] }).isNone = true := by decide

/-- Vector Y9: the buffer wraps at 0xFFFF. -/
theorem test_output :
    (ran [0x9100, 0xFFFF, 0x0200] (machine 0 0 0 [(0x0000, 0x42), (0x0200, 2), (0xFFFF, 0x41)])).map
        (fun t => (t.consoleOut, t.pr)) = some ([[0x41, 0x42]], 0x0013) := by decide

/-- Vector Y8. -/
theorem test_output_empty :
    (ran [0x9100, 0x0100, 0x0200] (machine 0 0 0 [])).map (fun t => t.consoleOut) = some [[]] := by decide

/-! ## The step -/

/-- Vector V14: the operand word is read across the top of memory. -/
theorem test_fetch_wraps :
    (after (step { machine 0 0 0 [(0, 0x1234), (0xFFFF, 0x1210)] with pr := 0xFFFF })).map (fun t => (t.gr.gr1, t.pr)) =
      some (0x1234, 0x0001) := by decide

/-- Vector V5, and the order of R276: an unknown opcode is reported whatever the register fields hold. -/
theorem test_invalidOperation :
    ran [0x00FF] (machine 0 0 0 []) =
      some { machine 0 0 0 [(0x0010, 0x00FF)] with status := .halted (.invalidOperation 0x0010) } := by decide

/-- Vectors V8, V10, V11, V12 and Y2. -/
theorem test_invalidRegister :
    ∀ words ∈ ([[0x1290, 0x0000], [0x640A, 0x0000], [0x2419], [0x249A], [0xF00C, 0x0001]] : List (List Word)),
      (ran words (machine 0 0 0 [])).map (fun t => (t.status, t.steps, t.pr)) =
        some (.halted (.invalidRegister 0x0010), 0, 0x0010) := by decide

/-- Vectors V3, V4, V9 and V13: ignored bits never fault. -/
theorem test_ignoredBits :
    (ran [0x712F] (machine 0 9 0x0100 [])).map (fun t => (t.gr.gr2, t.sp)) = some (0, 0x0101) ∧
    (ran [0x81FF] (machine 0 0 0 [])).map (fun t => t.status) = some (.halted .machineExit) ∧
    (ran [0x6490, 0x0022] (machine 0 0 0 [])).map (fun t => (t.pr, t.steps)) = some (0x0022, 1) ∧
    (ran [0xA0FF] (machine 0 0 0x0100 [])).map (fun t => (t.sp, t.pr)) = some (0x00F8, 0x0011) := by decide

/-- Vector V15: a halted machine stays. -/
theorem test_haltedStays :
    after (step { machine 0 0 0 [(0x0010, 0x2412)] with status := .halted .machineExit }) =
      some { machine 0 0 0 [(0x0010, 0x2412)] with status := .halted .machineExit } := by decide

/-! ## Reset, load and run -/

/-- R301: what the spec gives for the state after load, the memory being empty. -/
theorem test_reset :
    (State.reset.gr.gr0, State.reset.gr.gr7, State.reset.fr, State.reset.level, State.reset.steps, State.reset.status) =
      (0, 0, 0b001, 0, 0, Status.ready) ∧ State.reset.sp = spInit ∧ State.reset.mem.wf = true := ⟨by decide, rfl, by decide⟩

/-- Example E4: the minimal program faults at its first fetch. -/
theorem test_minimalProgram :
    (after (step State.reset)).map (fun t => (t.pr, t.steps, t.status)) =
      some (0x0000, 0, .halted (.invalidOperation 0x0000)) := by decide

/-- Vectors T1, T2 and T6. -/
theorem test_load :
    (load [0, 0, 0, 0, 0, 0, 0] State.reset).2 = some .shortHeader ∧
    (load [1, 2, 0x0123, 4, 5, 6, 7, 8, 0x8100, 0] State.reset).2 = none ∧
    (load [1, 2, 0x0123, 4, 5, 6, 7, 8, 0x8100, 0] State.reset).1.pr = 0x0123 ∧
    (load [1, 2, 0x0123, 4, 5, 6, 7, 8, 0x8100, 0] State.reset).1.mem = [(0, 0x8100)] := by decide

/-- Vector T5: a load after a halt clears the level and the counter and keeps the breakpoints. -/
theorem test_load_resets :
    (fun t : State => (t.level, t.steps, t.status, t.breakpoints))
        (load [0, 0, 0, 0, 0, 0, 0, 0]
          { machine 0 0 0 [] with level := 3, steps := 40, status := .halted .machineExit, breakpoints := [7] }).1 =
      (0, 0, .ready, [7]) := by decide

/-- R285: a run from a breakpoint moves past it and stops at the next one it comes to. -/
theorem test_run :
    run [0x0010, 0x0040] 3 (machine 0 0 0 [(0x0010, 0x6400), (0x0011, 0x0040)]) =
      .stopped { machine 0 0 0 [(0x0010, 0x6400), (0x0011, 0x0040)] with pr := 0x0040, steps := 1, status := .running } := by
  decide

/-- R284, R288: the breakpoint set and the status codes. -/
theorem test_host :
    ((State.reset.addBreakpoint 7).addBreakpoint 3).breakpoints = [3, 7] ∧
    (((State.reset.addBreakpoint 7).addBreakpoint 3).removeBreakpoint 7).breakpoints = [3] ∧
    (Status.halted (.invalidRegister 5)).code = 3 ∧ (Status.halted (.invalidRegister 5)).faultAddress = some 5 := by decide

/-- R54: both byte orders of a serialised stream. -/
theorem test_streamOfBytes :
    streamOfBytes .highByteFirst [0x12, 0x34] = some [0x1234] ∧ streamOfBytes .lowByteFirst [0x12, 0x34] = some [0x3412] ∧
    streamOfBytes .highByteFirst [0x12] = none := by decide

/-! ## Witnesses: for each statement with hypotheses, operands and a state that meet them -/

/-- Register fields at the ends of both ranges. -/
theorem witness_registerFields :
    Names 0 .gr0 ∧ Names 8 .gr8 ∧ NamesNone 9 ∧ NamesNone 15 := by unfold Names NamesNone; decide

/-- A state in which every form of every instruction runs. -/
def ready : State := called 0x0100 [(0x0010, 0x2412), (0x0100, 0x0040)]

theorem witness_LdLoadsTheWordAndSetsTheFlags :
    Names 8 .gr8 ∧ Names 0 .gr0 ∧ NamesNone 9 ∧
    ∀ i ∈ [Instr.ldAdr 8 0x0100 0, .ldReg 8 0], (after (exec i ready)).isSome = true := by unfold Names NamesNone; decide

theorem witness_StStoresTheRegister :
    Names 8 .gr8 ∧ NamesNone 9 ∧
    ∀ i ∈ [Instr.st 8 0xFFFF 8], (after (exec i ready)).isSome = true := by unfold Names NamesNone; decide

theorem witness_LadLoadsTheAddress :
    Names 8 .gr8 ∧ Names 0 .gr0 ∧ NamesNone 9 ∧
    ∀ i ∈ [Instr.lad 0 0xFFFF 8], (after (exec i ready)).isSome = true := by unfold Names NamesNone; decide

theorem witness_AddaAddsSigned :
    Names 8 .gr8 ∧ Names 0 .gr0 ∧ NamesNone 9 ∧
    ∀ i ∈ [Instr.addaAdr 8 0x0100 0, .addaReg 8 0], (after (exec i ready)).isSome = true := by unfold Names NamesNone; decide

theorem witness_SubaSubtractsSigned :
    Names 8 .gr8 ∧ Names 0 .gr0 ∧ NamesNone 9 ∧
    ∀ i ∈ [Instr.subaAdr 8 0x0100 0, .subaReg 8 0], (after (exec i ready)).isSome = true := by unfold Names NamesNone; decide

theorem witness_AddlAddsUnsigned :
    Names 8 .gr8 ∧ Names 0 .gr0 ∧ NamesNone 9 ∧
    ∀ i ∈ [Instr.addlAdr 8 0x0100 0, .addlReg 8 0], (after (exec i ready)).isSome = true := by unfold Names NamesNone; decide

theorem witness_SublSubtractsUnsigned :
    Names 8 .gr8 ∧ Names 0 .gr0 ∧ NamesNone 9 ∧
    ∀ i ∈ [Instr.sublAdr 8 0x0100 0, .sublReg 8 0], (after (exec i ready)).isSome = true := by unfold Names NamesNone; decide

theorem witness_BitwiseOperationsActBitByBit :
    Names 8 .gr8 ∧ Names 0 .gr0 ∧ NamesNone 9 ∧
    ∀ i ∈ [Instr.andAdr 8 0x0100 0, .andReg 8 0, .orAdr 8 0x0100 0, .orReg 8 0, .xorAdr 8 0x0100 0, .xorReg 8 0], (after (exec i ready)).isSome = true := by unfold Names NamesNone; decide

theorem witness_CpaComparesSigned :
    Names 8 .gr8 ∧ Names 0 .gr0 ∧ NamesNone 9 ∧
    ∀ i ∈ [Instr.cpaAdr 8 0x0100 0, .cpaReg 8 0], (after (exec i ready)).isSome = true := by unfold Names NamesNone; decide

theorem witness_CplComparesUnsigned :
    Names 8 .gr8 ∧ Names 0 .gr0 ∧ NamesNone 9 ∧
    ∀ i ∈ [Instr.cplAdr 8 0x0100 0, .cplReg 8 0], (after (exec i ready)).isSome = true := by unfold Names NamesNone; decide

theorem witness_SlaShiftsTheFieldLeft :
    Names 8 .gr8 ∧ Names 0 .gr0 ∧ NamesNone 9 ∧
    ∀ i ∈ [Instr.sla 8 16 0], (after (exec i ready)).isSome = true := by unfold Names NamesNone; decide

theorem witness_SraShiftsTheSignedValueRight :
    Names 8 .gr8 ∧ Names 0 .gr0 ∧ NamesNone 9 ∧
    ∀ i ∈ [Instr.sra 8 17 0], (after (exec i ready)).isSome = true := by unfold Names NamesNone; decide

theorem witness_SllShiftsTheWordLeft :
    Names 8 .gr8 ∧ Names 0 .gr0 ∧ NamesNone 9 ∧
    ∀ i ∈ [Instr.sll 8 16 0], (after (exec i ready)).isSome = true := by unfold Names NamesNone; decide

theorem witness_SrlShiftsTheWordRight :
    Names 8 .gr8 ∧ Names 0 .gr0 ∧ NamesNone 9 ∧
    ∀ i ∈ [Instr.srl 8 17 0], (after (exec i ready)).isSome = true := by unfold Names NamesNone; decide

theorem witness_BranchesJumpOnTheirConditions :
    Names 8 .gr8 ∧ NamesNone 9 ∧
    ∀ i ∈ [Instr.jmi 0xFFFF 8, .jnz 0xFFFF 8, .jze 0xFFFF 8, .jump 0xFFFF 8, .jpl 0xFFFF 8, .jov 0xFFFF 8], (after (exec i ready)).isSome = true := by unfold Names NamesNone; decide

theorem witness_PushStoresTheAddressBelowTheStack :
    Names 8 .gr8 ∧ NamesNone 9 ∧
    ∀ i ∈ [Instr.push 0xFFFF 8], (after (exec i ready)).isSome = true := by unfold Names NamesNone; decide

theorem witness_CallPushesItsOwnAddress :
    Names 8 .gr8 ∧ NamesNone 9 ∧
    ∀ i ∈ [Instr.call 0xFFFF 8], (after (exec i ready)).isSome = true := by unfold Names NamesNone; decide

theorem witness_SvcJumpsToItself :
    Names 8 .gr8 ∧ NamesNone 9 ∧
    ∀ i ∈ [Instr.svc 1 8], (after (exec i ready)).isSome = true := by unfold Names NamesNone; decide

/-- Both a register below GR8 and GR8 itself. -/
theorem witness_PopLoadsTheTopWord :
    Names 7 .gr7 ∧ Reg.gr7 ≠ .gr8 ∧ Names 8 .gr8 ∧ NamesNone 9 ∧
    ∀ i ∈ [Instr.pop 7, .pop 8], (after (exec i ready)).isSome = true := by unfold Names NamesNone; decide

/-- The call level at 0 and just above it. -/
theorem witness_RetReturnsPastTheCallOrEndsTheProgram :
    (machine 0 0 0 []).level = 0 ∧ 0 < ready.level ∧ (after (exec .ret ready)).isSome = true := by decide

theorem witness_RetUndoesItsCall :
    Names 8 .gr8 ∧ (after (exec (.call 0x0200 8) ready)).map (fun t => (t.sp, t.level, t.readMem t.sp)) = some (0x00FF, 2, 0x0010) :=
  by unfold Names; decide

/-- A listed line, a free line, and a provider that never answers. -/
theorem witness_InStoresTheLineAndItsCount :
    ({ ready with consoleIn := [.line [0x41]] } : State).consoleIn = .line [0x41] :: [] ∧ ready.consoleIn = [] ∧
    ({ ready with consoleIn := [.never] } : State).consoleIn = .never :: [] := by decide

/-- The clause on one code, for every bound that lets a code in: the first code, at the top of memory, with the count elsewhere. -/
theorem witness_InStoresACode (bound : Nat) (h : 1 ≤ bound) :
    0 < min [0x41].length bound ∧ (∀ j, 0 < j → j < min [0x41].length bound → (0xFFFF : Word) + BitVec.ofNat 16 j ≠ 0xFFFF + BitVec.ofNat 16 0) ∧
    (0xFFFF : Word) + BitVec.ofNat 16 0 ≠ 0x0200 := by
  refine ⟨by simp; omega, fun j h1 h2 => ?_, by decide⟩
  simp at h2
  omega

/-- An OUT of two words, the first and the last of which are sent. -/
theorem witness_OutSendsTheBuffer :
    (ready.readWords 0xFFFF 2).length = 2 ∧ (after (exec (.output 0xFFFF 0x0200) ready)).isSome = true := by decide

theorem witness_DecodedWordsAreTheEncodingOfTheInstruction :
    decode defaultParams [0x712F, 0x0001] = .ok (.pop 2, [0x0001]) := by decide

theorem witness_DecodingToleratesAnyBitPattern :
    decode defaultParams [0x712F] = .ok (.pop 2, []) ∧ (0x712F : Word) &&& usedBits (Instr.pop 2).shape = 0x7120 &&& usedBits (Instr.pop 2).shape := by
  decide

theorem witness_StepRunsTheInstructionAtPr :
    ready.status.isHalted = false ∧
    decode ready.params [ready.readMem ready.pr, ready.readMem (ready.pr + 1), ready.readMem (ready.pr + 2)] = .ok (.addaReg 1 2, [0, 0]) := by
  decide

/-- A word with no entry, next to one that has one. -/
theorem witness_UnknownOpcodeRaisesInvalidOperation :
    (machine 0 0 0 [(0x0010, 0x13FF)]).status.isHalted = false ∧
    (opcodeByte ((machine 0 0 0 [(0x0010, 0x13FF)]).readMem 0x0010)).toNat ∉ tableOpcodes defaultParams ∧
    (opcodeByte (ready.readMem ready.pr)).toNat ∈ tableOpcodes defaultParams ∧ (after (step ready)).isSome = true := by decide

/-- A used field at 9 and at 8, of each shape that has one. -/
theorem witness_FieldOutOfRangeRaisesInvalidRegister :
    (opcodeRow defaultParams 0x10).isSome = true ∧ (opcodeRow defaultParams 0x71).isSome = true ∧
    NamesNone (highNibble 0x1090) ∧ NamesNone (lowNibble 0x1009) ∧ ¬ NamesNone (highNibble 0x1088) ∧ ¬ NamesNone (lowNibble 0x1088) ∧
    NamesNone (highNibble 0x7190) ∧ ¬ NamesNone (highNibble 0x718F) ∧
    ready.status.isHalted = false ∧ (after (step ready)).isSome = true := by unfold NamesNone; decide

theorem witness_StatusFollowsTheStateMachine :
    (after (step ready)).isSome = true ∧ ready.status.isHalted = false ∧
    (after (step { ready with status := .halted .machineExit })).isSome = true ∧
    (load [0, 0, 0, 0, 0, 0, 0, 0] ready).2 = none := by decide

theorem witness_StepCounterCountsCompletedSteps :
    (load [0, 0, 0, 0, 0, 0, 0, 0] ready).2 = none ∧ (after (step ready)).map (fun t => t.status) = some .running ∧
    (after (step State.reset)).map (fun t => t.steps) = some 0 := by decide

theorem witness_FlagsAreWrittenByTheListedInstructionsOnly :
    (Instr.addaReg 1 2).wf = true ∧ WritesAllFlags (.addaReg 1 2) = true ∧ (after (exec (.addaReg 1 2) ready)).isSome = true ∧
    (Instr.lad 8 0 8).wf = true ∧ WritesAllFlags (.lad 8 0 8) = false ∧ (after (exec (.lad 8 0 8) ready)).isSome = true := by decide

theorem witness_CallLevelIsWrittenByCallAndRetOnly :
    (Instr.call 0 8).wf = true ∧ (after (exec (.call 0 8) ready)).isSome = true ∧ (after (exec .ret ready)).isSome = true ∧
    (after (exec .ret State.reset)).isSome = true ∧ (after (exec .rpush ready)).isSome = true ∧
    (load [0, 0, 0, 0, 0, 0, 0, 0] ready).2 = none := by decide

theorem witness_NoStepOrLoadChangesTheParameters : (after (step (unmasked 1 2))).isSome = true := by decide

/-- Each side of the premise, with parameters that differ from the state's. -/
theorem witness_OnlyAddAndSubtractDependOnTheParameters :
    (⟨.masked, 1, 2, 3, 4⟩ : Params).zfBasis = ready.params.zfBasis ∧ (⟨.masked, 1, 2, 3, 4⟩ : Params) ≠ ready.params ∧
    AddsOrSubtracts .rpush = false ∧ (⟨.unmasked, 1, 2, 3, 4⟩ : Params).zfBasis ≠ ready.params.zfBasis ∧
    (after (exec .rpush ready)).isSome = true := by decide

/-- Parameters that meet the premise: the defaults, and others on both bases. -/
theorem witness_DecodeOfEncodeIsTheInstruction :
    defaultParams.ok = true ∧ (⟨.unmasked, 0x01, 0xFF, 0x13, 0xA0⟩ : Params).ok = true := by decide

/-- The premise of the encoding clauses of IN, OUT, RPUSH and RPOP. -/
theorem witness_encodingOfTheParameterRows :
    ready.params.ok = true ∧ (unmasked 0 0).params.ok = true := by decide

theorem witness_BreakpointsHaveNoEffectOnAStep : (after (step ready)).isSome = true := by decide

theorem witness_OnlyInReadsTheConsoleAndOnlyOutWritesIt :
    (∀ buf lenadr, Instr.ret ≠ .input buf lenadr) ∧ (∀ buf lenadr, Instr.ret ≠ .output buf lenadr) ∧
    (after (exec .ret ready)).isSome = true := ⟨nofun, nofun, by decide⟩

theorem witness_OtherInstructionsLeaveMemory :
    (∀ r adr x, Instr.rpop ≠ .st r adr x) ∧ (∀ adr x, Instr.rpop ≠ .push adr x) ∧ (∀ adr x, Instr.rpop ≠ .call adr x) ∧
    Instr.rpop ≠ .rpush ∧ (∀ buf lenadr, Instr.rpop ≠ .input buf lenadr) ∧ (after (exec .rpop ready)).isSome = true :=
  ⟨nofun, nofun, nofun, nofun, nofun, by decide⟩

/-- The shortest and the longest stream, the last word of the longest, and an address just past the payload of the shortest. -/
theorem witness_LoadResetsEverything :
    8 ≤ [0, 0, 0, 0, 0, 0, 0, (0 : Word)].length ∧ (List.replicate 65544 (5 : Word)).length ≤ 8 + 65536 ∧
    (List.replicate 65544 (5 : Word))[8 + (0xFFFF : Word).toNat]? = some 5 ∧
    [0, 0, 0, 0, 0, 0, 0, (0 : Word)].length ≤ 8 + (0 : Word).toNat ∧ Reg.gr7 ≠ .gr8 :=
  ⟨by decide, by rw [List.length_replicate], by rw [List.getElem?_replicate]; decide, by decide, by decide⟩

theorem witness_FlagsAfterLoad : (load [0, 0, 0, 0, 0, 0, 0, 0] ready).2 = none := by decide

/-- One word too few, and one too many. -/
theorem witness_LoadOfABadStreamIsRefused :
    [0, 0, 0, 0, 0, 0, (0 : Word)].length < 8 ∧ 65536 < (List.replicate 65545 (0 : Word)).length - 8 :=
  ⟨by decide, by rw [List.length_replicate]; decide⟩

theorem witness_ResetIsTheStateAfterAnEmptyLoad :
    ready.params = defaultParams ∧ ready.breakpoints = [] ∧ ready.consoleIn = [] ∧ ready.consoleReads = 0 ∧ ready.consoleOut = [] := by decide

theorem witness_RunStopsAtTheFirstHaltOrBreakpoint :
    afterSteps 1 State.reset = some (State.reset.haltedBy (.invalidOperation 0)) ∧
    StopsRun [] (State.reset.haltedBy (.invalidOperation 0)) := ⟨rfl, .inl rfl⟩

theorem witness_LoadEstablishesTheInvariant :
    BreakpointsOk [3, 0xFFFF] ∧ ready.params.ok = true ∧ (load [0, 0, 0, 0, 0, 0, 0, 0] ready).2 = none :=
  ⟨⟨by decide, by decide⟩, by decide, by decide⟩

theorem witness_inv : Inv ready :=
  ⟨by decide, by decide, Nat.one_pos, ⟨by decide, by decide⟩, by decide⟩

theorem witness_StepKeepsTheInvariant : Inv ready ∧ (after (step ready)).isSome = true := ⟨witness_inv, by decide⟩

/-- Two states that differ, with the same words at every address. -/
theorem witness_EqualReadsAreEqualMemories :
    Inv ready ∧ Inv { ready with pr := 0 } ∧ SameMem [] ready { ready with pr := 0 } ∧ ready ≠ { ready with pr := 0 } :=
  ⟨witness_inv, ⟨by decide, by decide, Nat.one_pos, ⟨by decide, by decide⟩, by decide⟩, fun _ _ => rfl, by decide⟩

theorem witness_ViewsOfAWordAreReversible :
    s16 (u16 (-32768)) = -32768 ∧ s16 (u16 32767) = 32767 ∧ u16 (s16 0xFFFF) = 0xFFFF ∧ u16 65536 = 0 := by decide

/-- Vectors EA1 to EA5 are the clauses' cases; here the registers that meet them. -/
theorem witness_EffectiveAddressIsModulo65536 :
    Reg.gr8 ≠ .gr0 ∧ Names 0 .gr0 ∧ Names 8 .gr8 ∧ (machine 2 0 0xFF00 []).ea 0xFFFF .gr1 = 0x0001 ∧
    (machine 2 0 0xFF00 []).ea 0 .gr8 = 0xFF00 ∧ (machine 2 0 0xFF00 []).ea 0x1234 .gr0 = 0x1234 := by unfold Names; decide

/-- Vectors A4 and A3: the bases differ on the one and agree on the other. -/
theorem witness_ZeroFlagBasesDifferOnlyOnAWrapToZero :
    (adda .masked 0x8000 0x8000).2.zf ≠ (adda .unmasked 0x8000 0x8000).2.zf ∧
    (adda .masked 0xFFFF 1).2.zf = (adda .unmasked 0xFFFF 1).2.zf := by decide

theorem witness_LoadsAndBitwiseOperationsSetTheFlagsOfTheStoredWord :
    Names 8 .gr8 ∧ Names 0 .gr0 ∧ (after (exec (.orAdr 8 0x0100 0) ready)).isSome = true := by unfold Names; decide

theorem witness_OverflowIsSignedForArithmeticAndUnsignedForLogical :
    Names 8 .gr8 ∧ Names 0 .gr0 ∧
    ∀ i ∈ [Instr.addaAdr 8 0x0100 0, .sublReg 8 0], (after (exec i ready)).isSome = true := by unfold Names; decide

/-- Bits 0 and 15, with an amount at and past the end. -/
theorem witness_ShiftsMoveBits :
    0 < 16 ∧ 15 < 16 ∧ (slaFn 0x8001 15).1 = 0x8000 ∧ (sraFn 0x8001 16).1 = 0xFFFF := by decide

/-- A machine that is not halted with 0x00 at PR, and a header without a payload; with the default parameters, and with an OPC of 0. -/
theorem witness_OpcodeZeroRaisesInvalidOperation :
    State.reset.status.isHalted = false ∧ opcodeByte (State.reset.readMem State.reset.pr) = 0 ∧
    [1, 2, 0x0123, 4, 5, 6, 7, (8 : Word)].length = 8 ∧
    (let s : State := { unmasked 1 2 with params := ⟨.unmasked, 0x90, 0x91, 0x00, 0xA1⟩, mem := [(0x0010, 0x00FF)] }
     s.status.isHalted = false ∧ opcodeByte (s.readMem s.pr) = 0 ∧ s.readMem s.pr ≠ 0) := by decide

end Sys2Proof.Tests
end

section
/-! SUPPORT. R4, R8, R284: what the host sets beside a step (the parameters, the breakpoint set and the console's two ends), and
that an update of it commutes with every instruction that does not use what is updated. -/

namespace Sys2Proof.Machine

/-- An update of what belongs to the host, the part of the state that `SameHost` speaks of: a function for each of its fields. -/
structure HostUpdate where
  params : Params → Params := id
  breakpoints : List Nat → List Nat := id
  consoleIn : List ConsoleAnswer → List ConsoleAnswer := id
  consoleReads : Nat → Nat := id
  consoleOut : List (List Word) → List (List Word) := id

namespace HostUpdate

/-- The state with the update made. -/
def apply (h : HostUpdate) (s : State) : State :=
  { s with
    params := h.params s.params
    breakpoints := h.breakpoints s.breakpoints
    consoleIn := h.consoleIn s.consoleIn
    consoleReads := h.consoleReads s.consoleReads
    consoleOut := h.consoleOut s.consoleOut }

/-- R102, R251, R252: the update leaves the part of the host that the instruction uses: `ZF_BASIS` for an add or subtract, the
answers for IN, the lines sent for OUT. -/
structure Unseen (h : HostUpdate) (i : Instr) (s : State) : Prop where
  basis : (h.params s.params).zfBasis = s.params.zfBasis ∨ AddsOrSubtracts i = false
  input : (∀ buf lenadr, i ≠ .input buf lenadr) ∨ (h.consoleIn = id ∧ h.consoleReads = id)
  output : (∀ buf lenadr, i ≠ .output buf lenadr) ∨ h.consoleOut = id

variable (h : HostUpdate) (s : State)

/-! The shared operations: each commutes with the update. -/

theorem pushReg_apply (q : Reg) : (h.apply s).pushReg q = h.apply (s.pushReg q) := rfl

theorem popReg_apply (q : Reg) : (h.apply s).popReg q = h.apply (s.popReg q) := rfl

theorem foldl_pushReg_apply (qs : List Reg) :
    qs.foldl State.pushReg (h.apply s) = h.apply (qs.foldl State.pushReg s) :=
  List.foldl_hom h.apply h.pushReg_apply

theorem foldl_popReg_apply (qs : List Reg) :
    qs.foldl State.popReg (h.apply s) = h.apply (qs.foldl State.popReg s) :=
  List.foldl_hom h.apply h.popReg_apply

theorem storeCodes_apply (buf : Word) (codes : List Nat) :
    (h.apply s).storeCodes buf codes = h.apply (s.storeCodes buf codes) := by
  induction codes generalizing s buf with
  | nil => rfl
  | cons code rest ih => exact ih (s.writeMem buf (u16 code)) (buf + 1)

theorem storeLine_apply (maxChars : Nat) (buf lenadr : Word) (codes : List Nat) :
    (h.apply s).storeLine maxChars buf lenadr codes = h.apply (s.storeLine maxChars buf lenadr codes) := by
  rw [State.storeLine, storeCodes_apply]
  rfl

theorem readWords_apply (buf : Word) (k : Nat) : (h.apply s).readWords buf k = s.readWords buf k := by
  induction k generalizing buf with
  | zero => rfl
  | succ k ih => rw [State.readWords, ih]; rfl

theorem complete_apply (shape : Shape) (r : HandlerResult) :
    complete shape (h.apply s) r = mapNext h.apply (complete shape s r) := by
  cases r with
  | continue_ f => cases f <;> rfl
  | jump target f => cases f <;> rfl
  | halt => rfl

/-- R79: the check looks at no field of the host, so the handlers decide. -/
theorem withReg_apply (f : RegField) {handler' handler : Reg → StepOutcome}
    (hh : ∀ q, handler' q = mapNext h.apply (handler q)) :
    withReg f (h.apply s) handler' = mapNext h.apply (withReg f s handler) := by
  rcases withReg_cases f s handler with ⟨q, hq, e⟩ | ⟨hf, e⟩
  · rw [e, withReg_of_names hq, hh]
  · rw [e, withReg_of_namesNone hf]
    rfl

theorem withRegs_apply (f g : RegField) {handler' handler : Reg → Reg → StepOutcome}
    (hh : ∀ p q, handler' p q = mapNext h.apply (handler p q)) :
    withRegs f g (h.apply s) handler' = mapNext h.apply (withRegs f g s handler) :=
  h.withReg_apply s f fun p => h.withReg_apply s g (hh p)

/-! The instruction forms. -/

theorem aluAdr_apply (fn : Word → Word → Word × FlagTriple) (r : RegField) (adr : Word) (x : RegField) :
    aluAdr fn r adr x (h.apply s) = mapNext h.apply (aluAdr fn r adr x s) :=
  h.withRegs_apply s r x fun _ _ => h.complete_apply (s.setReg _ _) .rax _

theorem aluReg_apply (fn : Word → Word → Word × FlagTriple) (r1 r2 : RegField) :
    aluReg fn r1 r2 (h.apply s) = mapNext h.apply (aluReg fn r1 r2 s) :=
  h.withRegs_apply s r1 r2 fun _ _ => h.complete_apply (s.setReg _ _) .rr _

theorem compareAdr_apply (fn : Word → Word → FlagTriple) (r : RegField) (adr : Word) (x : RegField) :
    compareAdr fn r adr x (h.apply s) = mapNext h.apply (compareAdr fn r adr x s) :=
  h.withRegs_apply s r x fun _ _ => h.complete_apply s .rax _

theorem compareReg_apply (fn : Word → Word → FlagTriple) (r1 r2 : RegField) :
    compareReg fn r1 r2 (h.apply s) = mapNext h.apply (compareReg fn r1 r2 s) :=
  h.withRegs_apply s r1 r2 fun _ _ => h.complete_apply s .rr _

theorem shiftBy_apply (fn : Word → Nat → Word × FlagTriple) (r : RegField) (adr : Word) (x : RegField) :
    shiftBy fn r adr x (h.apply s) = mapNext h.apply (shiftBy fn r adr x s) :=
  h.withRegs_apply s r x fun _ _ => h.complete_apply (s.setReg _ _) .rax _

theorem branchIf_apply (condition : Bool) (adr : Word) (x : RegField) :
    branchIf condition adr x (h.apply s) = mapNext h.apply (branchIf condition adr x s) :=
  h.withReg_apply s x fun _ => h.complete_apply s .ax _

/-- R102: an add or subtract in its address form, when the update leaves `ZF_BASIS`. -/
theorem aluAdr_basis_apply {h : HostUpdate} {s : State} (hb : (h.params s.params).zfBasis = s.params.zfBasis)
    (fn : ZfBasis → Word → Word → Word × FlagTriple) (r : RegField) (adr : Word) (x : RegField) :
    aluAdr (fn (h.apply s).params.zfBasis) r adr x (h.apply s) =
      mapNext h.apply (aluAdr (fn s.params.zfBasis) r adr x s) := by
  rw [show (h.apply s).params.zfBasis = s.params.zfBasis from hb, aluAdr_apply]

/-- R102: an add or subtract in its register-pair form, when the update leaves `ZF_BASIS`. -/
theorem aluReg_basis_apply {h : HostUpdate} {s : State} (hb : (h.params s.params).zfBasis = s.params.zfBasis)
    (fn : ZfBasis → Word → Word → Word × FlagTriple) (r1 r2 : RegField) :
    aluReg (fn (h.apply s).params.zfBasis) r1 r2 (h.apply s) =
      mapNext h.apply (aluReg (fn s.params.zfBasis) r1 r2 s) := by
  rw [show (h.apply s).params.zfBasis = s.params.zfBasis from hb, aluReg_apply]

theorem execRet_apply : execRet (h.apply s) = mapNext h.apply (execRet s) := by
  unfold execRet
  rw [show (h.apply s).level = s.level from rfl]
  cases s.level with
  | zero => rfl
  | succ level => rfl

theorem execRpush_apply : execRpush (h.apply s) = mapNext h.apply (execRpush s) := by
  rw [execRpush, foldl_pushReg_apply, complete_apply, execRpush]

theorem execRpop_apply : execRpop (h.apply s) = mapNext h.apply (execRpop s) := by
  rw [execRpop, foldl_popReg_apply, complete_apply, execRpop]

/-- R251: IN, when the update leaves the answers. -/
theorem execInput_apply (hIn : h.consoleIn = id) (hReads : h.consoleReads = id) (buf lenadr : Word) :
    execInput buf lenadr (h.apply s) = mapNext h.apply (execInput buf lenadr s) := by
  have hAnswer : (h.apply s).nextAnswer = s.nextAnswer := by
    simp only [State.nextAnswer, apply, hIn, hReads, id]
  have hConsume : (h.apply s).consumeAnswer = h.apply s.consumeAnswer := by
    simp only [State.consumeAnswer, apply, hIn, hReads, id]
  unfold execInput
  rw [hAnswer]
  cases s.nextAnswer with
  | line codes =>
    simp only [hConsume, storeLine_apply, complete_apply]
  | never => rfl

/-- R252: OUT, when the update leaves the lines sent. -/
theorem execOutput_apply (hOut : h.consoleOut = id) (buf lenadr : Word) :
    execOutput buf lenadr (h.apply s) = mapNext h.apply (execOutput buf lenadr s) := by
  have hSend (line : List Word) : (h.apply s).sendLine line = h.apply (s.sendLine line) := by
    simp only [State.sendLine, apply, hOut, id]
  unfold execOutput
  rw [readWords_apply, hSend, complete_apply]
  rfl

/-- An instruction does the same before and after an update that it does not see. -/
theorem exec_apply {h : HostUpdate} {i : Instr} {s : State} (hu : h.Unseen i s) :
    exec i (h.apply s) = mapNext h.apply (exec i s) := by
  obtain ⟨hBasis, hInput, hOutput⟩ := hu
  have hKept (ha : AddsOrSubtracts i = true) : (h.params s.params).zfBasis = s.params.zfBasis :=
    hBasis.resolve_right (by simp [ha])
  cases i with
  | ldAdr r adr x => exact h.withRegs_apply s r x fun _ _ => h.complete_apply (s.setReg _ _) .rax _
  | st r adr x => exact h.withRegs_apply s r x fun _ _ => h.complete_apply (s.writeMem _ _) .rax _
  | lad r adr x => exact h.withRegs_apply s r x fun _ _ => h.complete_apply (s.setReg _ _) .rax _
  | ldReg r1 r2 => exact h.withRegs_apply s r1 r2 fun _ _ => h.complete_apply (s.setReg _ _) .rr _
  | addaAdr r adr x => exact aluAdr_basis_apply (hKept rfl) adda r adr x
  | subaAdr r adr x => exact aluAdr_basis_apply (hKept rfl) suba r adr x
  | addlAdr r adr x => exact aluAdr_basis_apply (hKept rfl) addl r adr x
  | sublAdr r adr x => exact aluAdr_basis_apply (hKept rfl) subl r adr x
  | addaReg r1 r2 => exact aluReg_basis_apply (hKept rfl) adda r1 r2
  | subaReg r1 r2 => exact aluReg_basis_apply (hKept rfl) suba r1 r2
  | addlReg r1 r2 => exact aluReg_basis_apply (hKept rfl) addl r1 r2
  | sublReg r1 r2 => exact aluReg_basis_apply (hKept rfl) subl r1 r2
  | andAdr r adr x => exact h.aluAdr_apply s andFn r adr x
  | orAdr r adr x => exact h.aluAdr_apply s orFn r adr x
  | xorAdr r adr x => exact h.aluAdr_apply s xorFn r adr x
  | andReg r1 r2 => exact h.aluReg_apply s andFn r1 r2
  | orReg r1 r2 => exact h.aluReg_apply s orFn r1 r2
  | xorReg r1 r2 => exact h.aluReg_apply s xorFn r1 r2
  | cpaAdr r adr x => exact h.compareAdr_apply s cpaFlags r adr x
  | cplAdr r adr x => exact h.compareAdr_apply s cplFlags r adr x
  | cpaReg r1 r2 => exact h.compareReg_apply s cpaFlags r1 r2
  | cplReg r1 r2 => exact h.compareReg_apply s cplFlags r1 r2
  | sla r adr x => exact h.shiftBy_apply s slaFn r adr x
  | sra r adr x => exact h.shiftBy_apply s sraFn r adr x
  | sll r adr x => exact h.shiftBy_apply s sllFn r adr x
  | srl r adr x => exact h.shiftBy_apply s srlFn r adr x
  | jmi adr x => exact h.branchIf_apply s s.sf adr x
  | jnz adr x => exact h.branchIf_apply s (!s.zf) adr x
  | jze adr x => exact h.branchIf_apply s s.zf adr x
  | jump adr x => exact h.branchIf_apply s true adr x
  | jpl adr x => exact h.branchIf_apply s (!s.sf && !s.zf) adr x
  | jov adr x => exact h.branchIf_apply s s.of adr x
  | push adr x => exact h.withReg_apply s x fun _ => h.complete_apply (s.pushWord _) .ax _
  | pop r => exact h.withReg_apply s r fun _ => h.complete_apply (s.popReg _) .r _
  | call adr x => exact h.withReg_apply s x fun _ => h.complete_apply ((s.pushWord _).setLevel _) .ax _
  | ret => exact h.execRet_apply s
  | input buf lenadr =>
    obtain ⟨hIn, hReads⟩ := hInput.resolve_left fun hne => hne buf lenadr rfl
    exact h.execInput_apply s hIn hReads buf lenadr
  | output buf lenadr =>
    exact h.execOutput_apply s (hOutput.resolve_left fun hne => hne buf lenadr rfl) buf lenadr
  | rpush => exact h.execRpush_apply s
  | rpop => exact h.execRpop_apply s
  | svc adr x => exact h.withReg_apply s x fun _ => h.complete_apply s .ax _

/-- Independence gives the frame: an update that the instruction does not see and that changes nothing before it changes nothing
after it. -/
theorem apply_next_eq_self {h : HostUpdate} {i : Instr} {s t : State} (hu : h.Unseen i s) (hs : h.apply s = s)
    (ht : exec i s = .next t) : h.apply t = t := by
  have he := exec_apply hu
  rw [hs, ht] at he
  exact (Host.Outcome.next.inj he).symm

/-! The updates that set one part of the host, and which instructions do not see them. -/

/-- Sets the parameters (R4). -/
def setParams (p : Params) : HostUpdate := { params := fun _ => p }

/-- Sets the answers of the host and how many it has given (R253). -/
def setAnswers (answers : List ConsoleAnswer) (n : Nat) : HostUpdate :=
  { consoleIn := fun _ => answers, consoleReads := fun _ => n }

/-- Sets the lines the sink has received (R253). -/
def setLines (lines : List (List Word)) : HostUpdate := { consoleOut := fun _ => lines }

theorem setParams_unseen {i : Instr} {s : State} {p : Params}
    (hb : p.zfBasis = s.params.zfBasis ∨ AddsOrSubtracts i = false) : (setParams p).Unseen i s :=
  ⟨hb, .inr ⟨rfl, rfl⟩, .inr rfl⟩

theorem setAnswers_unseen {i : Instr} (hi : ∀ buf lenadr, i ≠ .input buf lenadr) (s : State)
    (answers : List ConsoleAnswer) (n : Nat) : (setAnswers answers n).Unseen i s :=
  ⟨.inl rfl, .inl hi, .inr rfl⟩

theorem setLines_unseen {i : Instr} (hi : ∀ buf lenadr, i ≠ .output buf lenadr) (s : State)
    (lines : List (List Word)) : (setLines lines).Unseen i s :=
  ⟨.inl rfl, .inr ⟨rfl, rfl⟩, .inl hi⟩

end HostUpdate

/-- R4: no instruction changes the parameters. -/
theorem exec_params {i : Instr} {s t : State} (ht : exec i s = .next t) : t.params = s.params :=
  (congrArg State.params
    (HostUpdate.apply_next_eq_self (h := .setParams s.params) (HostUpdate.setParams_unseen (.inl rfl)) rfl ht)).symm

/-- R282: only OUT sends a line. -/
theorem exec_consoleOut {i : Instr} {s t : State} (hi : ∀ buf lenadr, i ≠ .output buf lenadr) (ht : exec i s = .next t) :
    t.consoleOut = s.consoleOut :=
  (congrArg State.consoleOut
    (HostUpdate.apply_next_eq_self (HostUpdate.setLines_unseen hi s s.consoleOut) rfl ht)).symm

end Sys2Proof.Machine
end

section
/-! SUPPORT. What a step and a load can do. -/

namespace Sys2Proof.Machine

/-- R41: a halted machine steps to itself. -/
theorem step_of_isHalted {s : State} (hs : s.status.isHalted = true) : step s = .next s := by
  unfold step
  cases h : s.status with
  | ready => rw [h] at hs; cases hs
  | running => rw [h] at hs; cases hs
  | halted reason => rfl

/-- R87: a machine that is not halted runs the instruction at PR. -/
theorem step_of_not_isHalted {s : State} (hs : s.status.isHalted = false) : step s = runInstruction s := by
  unfold step
  cases h : s.status with
  | ready => rfl
  | running => rfl
  | halted reason => rw [h] at hs; cases hs

/-- R41, R87, R271: what a step can do: nothing, an instruction, or InvalidOperation. -/
theorem step_cases (s : State) :
    (s.status.isHalted = true ∧ step s = .next s) ∨
    (∃ i, s.status.isHalted = false ∧ s.fetch = .ok i ∧ step s = exec i s) ∨
    (∃ e, s.status.isHalted = false ∧ s.fetch = .error e ∧ step s = .next (s.haltedBy (.invalidOperation s.pr))) := by
  cases hs : s.status.isHalted with
  | true => exact .inl ⟨rfl, step_of_isHalted hs⟩
  | false =>
    rw [step_of_not_isHalted hs, runInstruction]
    cases hf : s.fetch with
    | ok i => exact .inr (.inl ⟨i, rfl, rfl, rfl⟩)
    | error e => exact .inr (.inr ⟨e, rfl, rfl, rfl⟩)

/-- R274, R300: what a load can do: refuse the stream and leave the state, or load it. -/
theorem load_cases (stream : List Word) (s : State) :
    (∃ e, loadError stream = some e ∧ load stream s = (s, some e)) ∨
    (loadError stream = none ∧ load stream s = (s.loaded stream, none)) := by
  unfold load
  cases loadError stream with
  | some e => exact .inl ⟨e, rfl, rfl⟩
  | none => exact .inr ⟨rfl, rfl⟩

/-- R4: no step changes the parameters. -/
theorem step_params {s t : State} (ht : step s = .next t) : t.params = s.params := by
  rcases step_cases s with ⟨-, e⟩ | ⟨i, -, -, e⟩ | ⟨_, -, -, e⟩ <;> rw [e] at ht
  · cases ht; rfl
  · exact exec_params ht
  · cases ht; rfl

/-- R4: no load changes the parameters, refused or not. -/
theorem load_params (stream : List Word) (s : State) : (load stream s).1.params = s.params := by
  rcases load_cases stream s with ⟨_, -, e⟩ | ⟨-, e⟩ <;> rw [e]
  rfl

end Sys2Proof.Machine
end

section
/-! SUPPORT. R6: the two views of a word. -/

namespace Sys2Proof.Machine

/-- R6: the signed view, from the unsigned one. -/
theorem s16_eq_ite (w : Word) : s16 w = if w.toNat < 32768 then (w.toNat : Int) else (w.toNat : Int) - 65536 := by
  rw [s16, BitVec.toInt_eq_toNat_cond]
  split <;> split <;> omega

/-- R6: an integer in the signed range survives its word. -/
theorem s16_u16 {i : Int} (hlo : -32768 ≤ i) (hhi : i ≤ 32767) : s16 (u16 i) = i := by
  rw [s16, u16, BitVec.toInt_ofInt]
  exact Int.bmod_eq_of_le (by omega) (by omega)

/-- R6: the signed view stays in the signed range. -/
theorem s16_range (w : Word) : -32768 ≤ s16 w ∧ s16 w ≤ 32767 :=
  ⟨w.le_toInt, Int.le_of_lt_add_one w.toInt_lt⟩

/-- R6: the unsigned view stays in the unsigned range. -/
theorem unsigned_range (w : Word) : 0 ≤ unsigned w ∧ unsigned w ≤ 65535 :=
  ⟨Int.natCast_nonneg _, by have := w.isLt; unfold unsigned; omega⟩

/-- R6: the word of any integer, unsigned. -/
theorem unsigned_u16 (i : Int) : unsigned (u16 i) = i % 65536 := by
  rw [unsigned, u16, BitVec.toNat_ofInt]
  omega

end Sys2Proof.Machine
end

section
/-! PROOF. The statements on the scope of the machine: its parameters, its console and the two views of a word (R4, R6, R8). -/

namespace Sys2Proof.Proofs
open Sys2Proof Sys2Proof.Machine

/-- Settles O13: every step is nothing, an instruction or InvalidOperation, and every load keeps the field. -/
theorem noStepOrLoadChangesTheParameters : Obligations.NoStepOrLoadChangesTheParameters :=
  ⟨fun _ _ => step_params, fun s stream => load_params stream s⟩

/-- Settles O14: setting the parameters is an update of the host that such an instruction does not see. -/
theorem onlyAddAndSubtractDependOnTheParameters : Obligations.OnlyAddAndSubtractDependOnTheParameters :=
  fun _ _ _ hb => HostUpdate.exec_apply (HostUpdate.setParams_unseen hb)

/-- Settles O16: setting the answers is an update that all but IN do not see, and setting the lines sent one that all but OUT do
not see. -/
theorem onlyInReadsTheConsoleAndOnlyOutWritesIt : Obligations.OnlyInReadsTheConsoleAndOnlyOutWritesIt :=
  fun _ s =>
    ⟨fun hi answers n => HostUpdate.exec_apply (HostUpdate.setAnswers_unseen hi s answers n),
      fun hi _ => exec_consoleOut hi⟩

/-- Settles O27: the conversions and the ranges from the lemmas above, the two extensions from the library's. -/
theorem viewsOfAWordAreReversible : Obligations.ViewsOfAWordAreReversible := by
  refine ⟨fun _ => s16_u16, u16_s16, s16_eq_ite, fun w => ?range, unsigned_u16, fun w n hn => ⟨?signExtend, ?setWidth⟩⟩
  case range =>
    obtain ⟨hslo, hshi⟩ := s16_range w
    exact ⟨hslo, hshi, unsigned_range w⟩
  case signExtend => exact BitVec.toInt_signExtend_of_le hn
  case setWidth => rw [BitVec.toNat_setWidth_of_le hn, unsigned]

end Sys2Proof.Proofs
end

section
/-! SUPPORT. R23, R79: the register fields of an instruction as the step checks them. -/

namespace Sys2Proof.Machine

/-- R79: a field is out of range when it names no register. -/
theorem ok_eq_false_iff_namesNone {f : RegField} : f.ok = false ↔ NamesNone f := by
  simp only [RegField.ok, NamesNone, decide_eq_false_iff_not]
  omega

/-- R23, R79: a field in range names a register. -/
theorem exists_names_of_ok {f : RegField} (hf : f.ok = true) : ∃ q, Names f q :=
  (names_or_namesNone f).resolve_right fun hn => by simp [ok_eq_false_iff_namesNone.mpr hn] at hf

/-- R79: a check of one field that fails. -/
theorem withReg_of_not_ok {f : RegField} (hf : [f].all RegField.ok = false) (s : State) (handler : Reg → StepOutcome) :
    withReg f s handler = .next (s.haltedBy (.invalidRegister s.pr)) :=
  withReg_of_namesNone (ok_eq_false_iff_namesNone.mp (by simpa using hf)) s handler

/-- R79: a check of two fields that fails. -/
theorem withRegs_of_not_ok {f g : RegField} (hfg : [f, g].all RegField.ok = false) (s : State)
    (handler : Reg → Reg → StepOutcome) :
    withRegs f g s handler = .next (s.haltedBy (.invalidRegister s.pr)) := by
  refine withRegs_of_namesNone ?_ s handler
  rw [← ok_eq_false_iff_namesNone, ← ok_eq_false_iff_namesNone]
  simpa [-Bool.and_eq_false_imp, Bool.and_eq_false_iff] using hfg

/-- R79, R272: an instruction with a register field out of range raises InvalidRegister. -/
theorem exec_of_not_wf {i : Instr} (hi : i.wf = false) (s : State) :
    exec i s = .next (s.haltedBy (.invalidRegister s.pr)) := by
  cases i with
  | ldAdr r adr x | st r adr x | lad r adr x
  | addaAdr r adr x | subaAdr r adr x | addlAdr r adr x | sublAdr r adr x
  | andAdr r adr x | orAdr r adr x | xorAdr r adr x | cpaAdr r adr x | cplAdr r adr x
  | sla r adr x | sra r adr x | sll r adr x | srl r adr x => exact withRegs_of_not_ok hi s _
  | ldReg r1 r2 | addaReg r1 r2 | subaReg r1 r2 | addlReg r1 r2 | sublReg r1 r2
  | andReg r1 r2 | orReg r1 r2 | xorReg r1 r2 | cpaReg r1 r2 | cplReg r1 r2 => exact withRegs_of_not_ok hi s _
  | jmi adr x | jnz adr x | jze adr x | jump adr x | jpl adr x | jov adr x
  | push adr x | call adr x | svc adr x => exact withReg_of_not_ok hi s _
  | pop r => exact withReg_of_not_ok hi s _
  | ret | input _ _ | output _ _ | rpush | rpop => cases hi

end Sys2Proof.Machine
end

section
/-! SUPPORT. R7, R87, R251, R252: the recursive operations after an update of the state that they do not see. -/

namespace Sys2Proof.Machine

/-- Storing characters commutes with every update that writes to memory commute with. -/
theorem State.storeCodes_hom {f : State → State} (hf : ∀ s a v, (f s).writeMem a v = f (s.writeMem a v)) (s : State)
    (buf : Word) (codes : List Nat) : (f s).storeCodes buf codes = f (s.storeCodes buf codes) := by
  induction codes generalizing s buf with
  | nil => rfl
  | cons code rest ih => rw [State.storeCodes, hf, ih, State.storeCodes]

/-- R251: storing a line commutes with every update that writes to memory commute with. -/
theorem State.storeLine_hom {f : State → State} (hf : ∀ s a v, (f s).writeMem a v = f (s.writeMem a v)) (s : State)
    (maxChars : Nat) (buf lenadr : Word) (codes : List Nat) :
    (f s).storeLine maxChars buf lenadr codes = f (s.storeLine maxChars buf lenadr codes) := by
  rw [State.storeLine, State.storeCodes_hom hf, hf, State.storeLine]

/-- R252: the words sent depend on the memory alone. -/
theorem State.readWords_congr {s s' : State} (hm : s'.mem = s.mem) (buf : Word) (k : Nat) :
    s'.readWords buf k = s.readWords buf k := by
  induction k generalizing buf with
  | zero => rfl
  | succ k ih => rw [State.readWords, State.readWords, ih, State.readMem, State.readMem, hm]

/-- R7: the words from an address on depend on the memory alone. -/
theorem State.wordsFrom_congr {s s' : State} (hm : s'.mem = s.mem) (a : Word) (k : Nat) :
    s'.wordsFrom a k = s.wordsFrom a k := by
  induction k generalizing a with
  | zero => rfl
  | succ k ih => rw [State.wordsFrom, State.wordsFrom, ih, State.readMem, State.readMem, hm]

/-- R87: the fetch depends on the memory, PR and the parameters alone. -/
theorem State.fetch_congr {s s' : State} (hm : s'.mem = s.mem) (hpr : s'.pr = s.pr) (hp : s'.params = s.params) :
    s'.fetch = s.fetch := by
  have hread : s'.readMem s.pr = s.readMem s.pr := by rw [State.readMem, State.readMem, hm]
  rw [State.fetch, State.fetchWords, hpr, hp, hread, State.wordsFrom_congr hm, State.fetch, State.fetchWords]

end Sys2Proof.Machine
end

section
/-! SUPPORT. R27, R30, R31: the flags, the call level and the step counter, and what a handler does with them. -/

namespace Sys2Proof.Machine

/-- R30: the instructions other than CALL and RET. -/
def KeepsLevel (i : Instr) : Prop := (∀ adr x, i ≠ .call adr x) ∧ i ≠ .ret

/-- An update of the flags, the call level and the step counter: a function for each. -/
structure BookUpdate where
  of : Bool → Bool := id
  sf : Bool → Bool := id
  zf : Bool → Bool := id
  level : Nat → Nat := id
  steps : Nat → Nat := id

namespace BookUpdate

/-- The state with the update made. -/
def apply (u : BookUpdate) (s : State) : State :=
  { s with of := u.of s.of, sf := u.sf s.sf, zf := u.zf s.zf, level := u.level s.level, steps := u.steps s.steps }

/-- R27, R30: the update leaves what the instruction uses: the flags unless it writes all three, the call level for CALL and RET. -/
structure Unseen (u : BookUpdate) (i : Instr) (s : State) : Prop where
  flags : WritesAllFlags i = true ∨ (u.of s.of = s.of ∧ u.sf s.sf = s.sf ∧ u.zf s.zf = s.zf)
  level : KeepsLevel i ∨ u.level = id

/-- Sets the three flags (R26). -/
def setFlags (o n z : Bool) : BookUpdate := { of := fun _ => o, sf := fun _ => n, zf := fun _ => z }

/-- Sets the call level (R30). -/
def setLevel (n : Nat) : BookUpdate := { level := fun _ => n }

/-- Sets the step counter (R31). -/
def setSteps (n : Nat) : BookUpdate := { steps := fun _ => n }

theorem setFlags_unseen {i : Instr} (hi : WritesAllFlags i = true) (s : State) (o n z : Bool) :
    (setFlags o n z).Unseen i s :=
  ⟨.inl hi, .inr rfl⟩

theorem setFlags_self_unseen (i : Instr) (s : State) : (setFlags s.of s.sf s.zf).Unseen i s :=
  ⟨.inr ⟨rfl, rfl, rfl⟩, .inr rfl⟩

theorem setLevel_unseen {i : Instr} (hi : KeepsLevel i) (s : State) (n : Nat) : (setLevel n).Unseen i s :=
  ⟨.inr ⟨rfl, rfl, rfl⟩, .inl hi⟩

theorem setSteps_unseen (i : Instr) (s : State) (n : Nat) : (setSteps n).Unseen i s :=
  ⟨.inr ⟨rfl, rfl, rfl⟩, .inr rfl⟩

theorem Unseen.level_eq_id {u : BookUpdate} {i : Instr} {s : State} (hu : u.Unseen i s) (hi : ¬ KeepsLevel i) :
    u.level = id :=
  hu.level.resolve_left hi

/-- R30: a new call level and an update that leaves the level can be made in either order. -/
theorem apply_setLevel {u : BookUpdate} (hu : u.level = id) (s : State) (n : Nat) :
    (u.apply s).setLevel n = u.apply (s.setLevel n) := by
  simp only [apply, State.setLevel, hu, id]

end BookUpdate

/-- R88, R253: what a handler leaves: the state, and its result unless the console never answers. -/
abbrev Handled := State × Option HandlerResult

/-- R87, R253: the end of a step, from what the handler leaves. -/
def finish (shape : Shape) : Handled → StepOutcome
  | (s, some r) => complete shape s r
  | (_, none) => .fault .consoleNeverAnswers

/-- R27, R89, R253, R273: what a handler called in the state `s` can leave, by whether its instruction writes the flags. One that
writes them falls through with a full triple, the others report no flag, and one that halts has changed nothing. -/
inductive Leaves (s : State) : Bool → Handled → Prop
  | stuck (w : Bool) (s' : State) : Leaves s w (s', none)
  | flags (s' : State) (o n z : Bool) : Leaves s true (s', some (.continue_ (some (.full o n z))))
  | fallThrough (s' : State) : Leaves s false (s', some (.continue_ none))
  | jump (s' : State) (target : Word) : Leaves s false (s', some (.jump target none))
  | halt : Leaves s false (s, some .halt)

/-- R88: `run` is the handler of the instruction: the step ends as it says, and it does not see what the instruction does not
use of the flags, the call level and the step counter. -/
structure HandledBy (i : Instr) (run : State → Handled) : Prop where
  exec_eq : ∀ s, exec i s = finish i.shape (run s)
  apply : ∀ (u : BookUpdate) (s : State), u.Unseen i s → run (u.apply s) = Prod.map u.apply id (run s)
  leaves : ∀ s, Leaves s (WritesAllFlags i) (run s)

/-- The handler of an instruction with one register field, from its effect and its result for the register named. -/
theorem exists_handledBy_of_field {i : Instr} {f : RegField} (hf : [f].all RegField.ok = true)
    {effect : Reg → State → State} {result : Reg → State → HandlerResult}
    (he : ∀ s, exec i s = withReg f s fun q => complete i.shape (effect q s) (result q s))
    (ha : ∀ (q : Reg) (u : BookUpdate) (s : State), u.Unseen i s →
      effect q (u.apply s) = u.apply (effect q s) ∧ result q (u.apply s) = result q s)
    (hl : ∀ q s, Leaves s (WritesAllFlags i) (effect q s, some (result q s))) : ∃ run, HandledBy i run := by
  obtain ⟨q, hq⟩ := exists_names_of_ok (f := f) (by simpa using hf)
  refine ⟨fun s => (effect q s, some (result q s)), ⟨fun s => ?_, fun u s hu => ?_, hl q⟩⟩
  · rw [he, withReg_of_names hq, finish]
  · obtain ⟨heff, hres⟩ := ha q u s hu
    rw [heff, hres]
    rfl

/-- The handler of an instruction with two register fields. -/
theorem exists_handledBy_of_fields {i : Instr} {f g : RegField} (hfg : [f, g].all RegField.ok = true)
    {effect : Reg → Reg → State → State} {result : Reg → Reg → State → HandlerResult}
    (he : ∀ s, exec i s = withRegs f g s fun p q => complete i.shape (effect p q s) (result p q s))
    (ha : ∀ (p q : Reg) (u : BookUpdate) (s : State), u.Unseen i s →
      effect p q (u.apply s) = u.apply (effect p q s) ∧ result p q (u.apply s) = result p q s)
    (hl : ∀ p q s, Leaves s (WritesAllFlags i) (effect p q s, some (result p q s))) : ∃ run, HandledBy i run := by
  obtain ⟨hf, hg⟩ : f.ok = true ∧ g.ok = true := by simpa using hfg
  obtain ⟨p, hp⟩ := exists_names_of_ok hf
  refine exists_handledBy_of_field (f := g) (by simpa using hg) (effect := effect p) (result := result p) (fun s => ?_)
    (ha p) (hl p)
  rw [he, withRegs, withReg_of_names hp]

/-- R200: the handler of a branch, which reads the flags and writes nothing. -/
theorem exists_handledBy_of_branch {i : Instr} {adr : Word} {x : RegField} (hx : [x].all RegField.ok = true)
    (condition : Bool → Bool → Bool → Bool) (hs : i.shape = .ax) (hw : WritesAllFlags i = false)
    (he : ∀ s, exec i s = branchIf (condition s.of s.sf s.zf) adr x s) : ∃ run, HandledBy i run := by
  refine exists_handledBy_of_field hx (effect := fun _ s => s)
    (result := fun q s => if condition s.of s.sf s.zf then .jump (s.ea adr q) none else .continue_ none)
    (fun s => by rw [he, hs]; rfl) (fun q u s hu => ⟨rfl, ?_⟩) (fun q s => ?_)
  · obtain ⟨hof, hsf, hzf⟩ := hu.flags.resolve_left (by simp [hw])
    have hcond : condition (u.apply s).of (u.apply s).sf (u.apply s).zf = condition s.of s.sf s.zf := by
      simp only [BookUpdate.apply, hof, hsf, hzf]
    rw [hcond]
    rfl
  · rw [hw]
    split
    · exact .jump s _
    · exact .fallThrough s

/-- R223: what the handler of RET leaves. -/
def runRet (s : State) : Handled :=
  match s.level with
  | 0 => (s, some .halt)
  | level + 1 => (s.incSp.setLevel level, some (.jump (s.readMem s.sp + 2) none))

theorem ret_handledBy : HandledBy .ret runRet where
  exec_eq s := by
    show execRet s = _
    unfold execRet runRet
    cases s.level <;> rfl
  apply u s hu := by
    have hlevel : u.level = id := hu.level_eq_id fun hk => hk.2 rfl
    unfold runRet
    rw [show (u.apply s).level = s.level from congrFun hlevel s.level]
    cases s.level with
    | zero => rfl
    | succ level => exact congrArg (·, _) (BookUpdate.apply_setLevel hlevel s.incSp level)
  leaves s := by
    unfold runRet
    cases s.level with
    | zero => exact .halt
    | succ level => exact .jump _ _

/-- R251, R253: what the handler of IN leaves. -/
def runInput (buf lenadr : Word) (s : State) : Handled :=
  match s.nextAnswer with
  | .line codes => (s.consumeAnswer.storeLine inMaxChars buf lenadr codes, some (.continue_ none))
  | .never => (s, none)

theorem input_handledBy (buf lenadr : Word) : HandledBy (.input buf lenadr) (runInput buf lenadr) where
  exec_eq s := by
    show execInput buf lenadr s = _
    unfold execInput runInput
    cases s.nextAnswer <;> rfl
  apply u s _ := by
    unfold runInput
    rw [show (u.apply s).nextAnswer = s.nextAnswer from rfl,
      show (u.apply s).consumeAnswer = u.apply s.consumeAnswer from rfl]
    cases s.nextAnswer with
    | line codes => exact congrArg (·, _) (State.storeLine_hom (fun _ _ _ => rfl) s.consumeAnswer _ buf lenadr codes)
    | never => rfl
  leaves s := by
    unfold runInput
    cases s.nextAnswer with
    | line codes => exact .fallThrough _
    | never => exact .stuck _ _

/-- R87, R88: every instruction whose register fields are in range has a handler. -/
theorem exists_handledBy {i : Instr} (hi : i.wf = true) : ∃ run, HandledBy i run := by
  cases i with
  | ldAdr r adr x | addaAdr r adr x | subaAdr r adr x | addlAdr r adr x | sublAdr r adr x
  | andAdr r adr x | orAdr r adr x | xorAdr r adr x | cpaAdr r adr x | cplAdr r adr x
  | sla r adr x | sra r adr x | sll r adr x | srl r adr x =>
    exact exists_handledBy_of_fields hi (fun _ => rfl) (fun _ _ _ _ _ => ⟨rfl, rfl⟩) (fun _ _ _ => .flags _ _ _ _)
  | ldReg r1 r2 | addaReg r1 r2 | subaReg r1 r2 | addlReg r1 r2 | sublReg r1 r2
  | andReg r1 r2 | orReg r1 r2 | xorReg r1 r2 | cpaReg r1 r2 | cplReg r1 r2 =>
    exact exists_handledBy_of_fields hi (fun _ => rfl) (fun _ _ _ _ _ => ⟨rfl, rfl⟩) (fun _ _ _ => .flags _ _ _ _)
  | st r adr x | lad r adr x =>
    exact exists_handledBy_of_fields hi (fun _ => rfl) (fun _ _ _ _ _ => ⟨rfl, rfl⟩) (fun _ _ _ => .fallThrough _)
  | jmi adr x => exact exists_handledBy_of_branch hi (fun _ sf _ => sf) rfl rfl fun _ => rfl
  | jnz adr x => exact exists_handledBy_of_branch hi (fun _ _ zf => !zf) rfl rfl fun _ => rfl
  | jze adr x => exact exists_handledBy_of_branch hi (fun _ _ zf => zf) rfl rfl fun _ => rfl
  | jump adr x => exact exists_handledBy_of_branch hi (fun _ _ _ => true) rfl rfl fun _ => rfl
  | jpl adr x => exact exists_handledBy_of_branch hi (fun _ sf zf => !sf && !zf) rfl rfl fun _ => rfl
  | jov adr x => exact exists_handledBy_of_branch hi (fun of _ _ => of) rfl rfl fun _ => rfl
  | push adr x =>
    exact exists_handledBy_of_field hi (fun _ => rfl) (fun _ _ _ _ => ⟨rfl, rfl⟩) (fun _ _ => .fallThrough _)
  | pop r =>
    exact exists_handledBy_of_field hi (fun _ => rfl) (fun _ _ _ _ => ⟨rfl, rfl⟩) (fun _ _ => .fallThrough _)
  | svc adr x =>
    exact exists_handledBy_of_field hi (fun _ => rfl) (fun _ _ _ _ => ⟨rfl, rfl⟩) (fun _ _ => .jump _ _)
  | call adr x =>
    refine exists_handledBy_of_field hi (fun _ => rfl) (fun q u s hu => ⟨?_, rfl⟩) (fun _ _ => .jump _ _)
    have hlevel : u.level = id := hu.level_eq_id fun hk => hk.1 adr x rfl
    rw [show (u.apply s).level = s.level from congrFun hlevel s.level]
    exact BookUpdate.apply_setLevel hlevel (s.pushWord s.pr) (s.level + 1)
  | ret => exact ⟨runRet, ret_handledBy⟩
  | input buf lenadr => exact ⟨runInput buf lenadr, input_handledBy buf lenadr⟩
  | output buf lenadr =>
    refine ⟨fun s => (s.sendLine (s.readWords buf (s.readMem lenadr).toNat), some (.continue_ none)),
      ⟨fun _ => rfl, fun u s _ => ?_, fun _ => .fallThrough _⟩⟩
    rw [State.readWords_congr (s := s) (s' := u.apply s) rfl]
    rfl
  | rpush =>
    refine ⟨fun s => (savedRegs.foldl State.pushReg s, some (.continue_ none)),
      ⟨fun _ => rfl, fun u s _ => ?_, fun _ => .fallThrough _⟩⟩
    exact congrArg (·, _) (List.foldl_hom u.apply fun _ _ => rfl)
  | rpop =>
    refine ⟨fun s => (savedRegs.reverse.foldl State.popReg s, some (.continue_ none)),
      ⟨fun _ => rfl, fun u s _ => ?_, fun _ => .fallThrough _⟩⟩
    exact congrArg (·, _) (List.foldl_hom u.apply fun _ _ => rfl)

end Sys2Proof.Machine
end

section
/-! SUPPORT. R27, R30, R31, R41: what the end of a step does with the flags, the call level, the step counter and the status, and
what follows for every instruction and every step. -/

namespace Sys2Proof.Machine

/-! The end of a step. -/

/-- R41, R87, R273: a step whose handler answers has arrived somewhere, or halts with MachineExit. -/
theorem finish_cases {shape : Shape} {h : Handled} {t : State} (ht : finish shape h = .next t) :
    (∃ f p, t = (h.1.applyFlags f).arrive p) ∨ (h.2 = some .halt ∧ t = h.1.haltedBy .machineExit) := by
  obtain ⟨s', _ | r⟩ := h
  · cases ht
  · rcases complete_cases s' shape r with ⟨f, p, e⟩ | ⟨rfl, e⟩ <;> rw [finish, e] at ht <;> cases ht
    · exact .inl ⟨f, p, rfl⟩
    · exact .inr ⟨rfl, rfl⟩

/-- R31: a step counts when it ends Running. -/
theorem finish_steps {shape : Shape} {h : Handled} {t : State} (ht : finish shape h = .next t) :
    t.steps = if t.status = .running then h.1.steps + 1 else h.1.steps := by
  rcases finish_cases ht with ⟨f, p, rfl⟩ | ⟨-, rfl⟩ <;> simp

/-- R31: the end of a step with another step counter. -/
theorem finish_setSteps {shape : Shape} {h : Handled} {t : State} (ht : finish shape h = .next t) (n : Nat) :
    finish shape (Prod.map (BookUpdate.setSteps n).apply id h) =
      .next ((BookUpdate.setSteps (if t.status = .running then n + 1 else n)).apply t) := by
  match h, ht with
  | (_, some (.continue_ f)), rfl => cases f <;> rfl
  | (_, some (.jump _ f)), rfl => cases f <;> rfl
  | (_, some .halt), rfl => rfl

/-- R30: the end of a step does not see the call level. -/
theorem finish_setLevel (shape : Shape) (h : Handled) (n : Nat) :
    finish shape (Prod.map (BookUpdate.setLevel n).apply id h) =
      mapNext (BookUpdate.setLevel n).apply (finish shape h) := by
  match h with
  | (_, none) => rfl
  | (_, some (.continue_ f)) => cases f <;> rfl
  | (_, some (.jump _ f)) => cases f <;> rfl
  | (_, some .halt) => rfl

/-- R27, R89: a full triple overwrites whatever the flags were. -/
theorem finish_setFlags {s : State} {h : Handled} (hl : Leaves s true h) (shape : Shape) (o n z : Bool) :
    finish shape (Prod.map (BookUpdate.setFlags o n z).apply id h) = finish shape h := by
  cases hl <;> rfl

/-- R27, R89: without a triple the flags stay. -/
theorem finish_sameFlags {s t : State} {h : Handled} {shape : Shape} (hl : Leaves s false h)
    (ht : finish shape h = .next t) : SameFlags h.1 t := by
  cases hl <;> cases ht <;> exact ⟨rfl, rfl, rfl⟩

/-! The handler. -/

/-- R273: a handler that answers Halt changes nothing. -/
theorem Leaves.eq_of_halt {s : State} {w : Bool} {h : Handled} (hl : Leaves s w h) (hh : h.2 = some .halt) : h.1 = s := by
  cases hl with
  | halt => rfl
  | stuck | flags | fallThrough | jump => cases hh

namespace HandledBy

variable {i : Instr} {run : State → Handled} (hr : HandledBy i run) (s : State)
include hr

/-- R31: no handler changes the step counter. -/
theorem steps_eq : (run s).1.steps = s.steps :=
  congrArg (·.1.steps) (hr.apply _ s (BookUpdate.setSteps_unseen i s s.steps))

/-- R89: no handler writes a flag; what it reports of them is written at the end of the step. -/
theorem sameFlags : SameFlags s (run s).1 := by
  have h : run s = Prod.map (BookUpdate.setFlags s.of s.sf s.zf).apply id (run s) :=
    hr.apply _ s (BookUpdate.setFlags_self_unseen i s)
  rw [h]
  exact ⟨rfl, rfl, rfl⟩

end HandledBy

/-! Every instruction. -/

/-- R41, R272, R273: an instruction completes and the machine runs, or it halts and changes nothing but the status. -/
theorem exec_status {i : Instr} {s t : State} (ht : exec i s = .next t) :
    t.status = .running ∨ t = s.haltedBy .machineExit ∨ t = s.haltedBy (.invalidRegister s.pr) := by
  cases hi : i.wf with
  | false =>
    rw [exec_of_not_wf hi] at ht
    cases ht
    exact .inr (.inr rfl)
  | true =>
    obtain ⟨run, hr⟩ := exists_handledBy hi
    rw [hr.exec_eq] at ht
    rcases finish_cases ht with ⟨f, p, rfl⟩ | ⟨hh, rfl⟩
    · exact .inl rfl
    · rw [(hr.leaves s).eq_of_halt hh]
      exact .inr (.inl rfl)

/-- R31: an instruction counts when it ends Running. -/
theorem exec_steps {i : Instr} {s t : State} (ht : exec i s = .next t) :
    t.steps = if t.status = .running then s.steps + 1 else s.steps := by
  cases hi : i.wf with
  | false =>
    rw [exec_of_not_wf hi] at ht
    cases ht
    simp
  | true =>
    obtain ⟨run, hr⟩ := exists_handledBy hi
    rw [hr.exec_eq] at ht
    rw [finish_steps ht, hr.steps_eq]

/-- R31: no instruction depends on the step counter. -/
theorem exec_setSteps {i : Instr} {s t : State} (ht : exec i s = .next t) (n : Nat) :
    exec i ((BookUpdate.setSteps n).apply s) =
      .next ((BookUpdate.setSteps (if t.status = .running then n + 1 else n)).apply t) := by
  cases hi : i.wf with
  | false =>
    rw [exec_of_not_wf hi] at ht ⊢
    cases ht
    rfl
  | true =>
    obtain ⟨run, hr⟩ := exists_handledBy hi
    rw [hr.exec_eq] at ht ⊢
    rw [hr.apply _ s (BookUpdate.setSteps_unseen i s n)]
    exact finish_setSteps ht n

/-- R27: an instruction that writes all three flags does not depend on what they were. -/
theorem exec_setFlags {i : Instr} (hi : i.wf = true) (hw : WritesAllFlags i = true) (s : State) (o n z : Bool) :
    exec i ((BookUpdate.setFlags o n z).apply s) = exec i s := by
  obtain ⟨run, hr⟩ := exists_handledBy hi
  rw [hr.exec_eq, hr.exec_eq, hr.apply _ s (BookUpdate.setFlags_unseen hw s o n z)]
  exact finish_setFlags (hw ▸ hr.leaves s) i.shape o n z

/-- R27: the other instructions leave the flags. -/
theorem exec_sameFlags {i : Instr} {s t : State} (hi : i.wf = true) (hw : WritesAllFlags i = false)
    (ht : exec i s = .next t) : SameFlags s t := by
  obtain ⟨run, hr⟩ := exists_handledBy hi
  rw [hr.exec_eq] at ht
  obtain ⟨hof, hsf, hzf⟩ := hr.sameFlags s
  obtain ⟨hof', hsf', hzf'⟩ := finish_sameFlags (hw ▸ hr.leaves s) ht
  exact ⟨hof'.trans hof, hsf'.trans hsf, hzf'.trans hzf⟩

/-- R30: an instruction other than CALL and RET does not depend on the call level. -/
theorem exec_setLevel {i : Instr} (hi : i.wf = true) (hk : KeepsLevel i) (s : State) (n : Nat) :
    exec i ((BookUpdate.setLevel n).apply s) = mapNext (BookUpdate.setLevel n).apply (exec i s) := by
  obtain ⟨run, hr⟩ := exists_handledBy hi
  rw [hr.exec_eq, hr.exec_eq, hr.apply _ s (BookUpdate.setLevel_unseen hk s n), finish_setLevel]

/-- R30: an instruction other than CALL and RET leaves the call level. -/
theorem exec_level {i : Instr} {s t : State} (hi : i.wf = true) (hk : KeepsLevel i) (ht : exec i s = .next t) :
    t.level = s.level := by
  have he : exec i s = mapNext (BookUpdate.setLevel s.level).apply (exec i s) := exec_setLevel hi hk s s.level
  rw [ht, mapNext] at he
  calc t.level = ((BookUpdate.setLevel s.level).apply t).level := congrArg State.level (Host.Outcome.next.inj he)
    _ = s.level := rfl

/-- R222: CALL adds one to the call level. -/
theorem exec_call_level {adr : Word} {x : RegField} {s t : State} (hi : (Instr.call adr x).wf = true)
    (ht : exec (.call adr x) s = .next t) : t.level = s.level + 1 := by
  obtain ⟨q, hq⟩ := exists_names_of_ok (f := x) (by simpa [Instr.wf, Instr.regFields] using hi)
  change withReg x s _ = _ at ht
  rw [withReg_of_names hq] at ht
  cases ht
  rfl

/-- R223: RET takes one from the call level, and leaves a level of 0. -/
theorem exec_ret_level {s t : State} (ht : exec .ret s = .next t) : t.level = s.level - 1 := by
  change execRet s = _ at ht
  unfold execRet at ht
  cases hlevel : s.level with
  | zero =>
    rw [hlevel] at ht
    cases ht
    exact hlevel
  | succ level =>
    rw [hlevel] at ht
    cases ht
    rfl

/-! Every step. -/

/-- R40: a halted machine is not running. -/
theorem Status.ne_running_of_isHalted {status : Status} (h : status.isHalted = true) : status ≠ .running := by
  rintro rfl
  cases h

/-- R87: a machine that is not halted runs the instruction it has fetched. -/
theorem step_of_fetch_ok {s : State} {i : Instr} (hs : s.status.isHalted = false) (hf : s.fetch = .ok i) :
    step s = exec i s := by
  rw [step_of_not_isHalted hs, runInstruction, hf]

/-- R271: a machine that is not halted rejects a word that is no instruction. -/
theorem step_of_fetch_error {s : State} {e : DecodeError} (hs : s.status.isHalted = false) (hf : s.fetch = .error e) :
    step s = .next (s.haltedBy (.invalidOperation s.pr)) := by
  rw [step_of_not_isHalted hs, runInstruction, hf, rejectFetch, raise_eq]

/-- R41, R270: a step from Ready or Running completes and the machine runs, or it halts and changes nothing but the status. -/
theorem step_status {s t : State} (hs : s.status.isHalted = false) (ht : step s = .next t) :
    t.status = .running ∨ t = s.haltedBy .machineExit ∨
      t = s.haltedBy (.invalidOperation s.pr) ∨ t = s.haltedBy (.invalidRegister s.pr) := by
  rcases step_cases s with ⟨hh, -⟩ | ⟨i, -, -, e⟩ | ⟨_, -, -, e⟩
  · simp [hs] at hh
  · rcases exec_status (e ▸ ht) with h | h | h
    · exact .inl h
    · exact .inr (.inl h)
    · exact .inr (.inr (.inr h))
  · exact .inr (.inr (.inl (Host.Outcome.next.inj (ht.symm.trans e))))

/-- R31: a step counts when it ends Running. -/
theorem step_steps {s t : State} (ht : step s = .next t) :
    t.steps = if t.status = .running then s.steps + 1 else s.steps := by
  rcases step_cases s with ⟨hs, e⟩ | ⟨i, -, -, e⟩ | ⟨_, -, -, e⟩ <;> rw [e] at ht
  · cases ht
    rw [if_neg (Status.ne_running_of_isHalted hs)]
  · exact exec_steps ht
  · cases ht
    simp

/-- R31: no step depends on the step counter. -/
theorem step_setSteps {s t : State} (ht : step s = .next t) (n : Nat) :
    step ((BookUpdate.setSteps n).apply s) =
      .next ((BookUpdate.setSteps (if t.status = .running then n + 1 else n)).apply t) := by
  have hstatus : ((BookUpdate.setSteps n).apply s).status = s.status := rfl
  have hfetch : ((BookUpdate.setSteps n).apply s).fetch = s.fetch := State.fetch_congr rfl rfl rfl
  rcases step_cases s with ⟨hs, e⟩ | ⟨i, hs, hf, e⟩ | ⟨_, hs, hf, e⟩ <;> rw [e] at ht
  · cases ht
    rw [if_neg (Status.ne_running_of_isHalted hs)]
    exact step_of_isHalted hs
  · rw [step_of_fetch_ok (hstatus ▸ hs) (hfetch.trans hf)]
    exact exec_setSteps ht n
  · cases ht
    exact step_of_fetch_error hs (hfetch.trans hf)

/-- R300: a load that is not refused loads the stream. -/
theorem load_of_accepted {s : State} {stream : List Word} (h : (load stream s).2 = none) :
    (load stream s).1 = s.loaded stream := by
  rcases load_cases stream s with ⟨_, -, e⟩ | ⟨-, e⟩ <;> rw [e] at h ⊢
  cases h

/-- R29: FR after a load. -/
theorem State.loaded_fr (s : State) (stream : List Word) : (s.loaded stream).fr = 0b001 := by
  change BitVec.ofBool false ++ BitVec.ofBool false ++ BitVec.ofBool true = (0b001 : BitVec 3)
  decide

end Sys2Proof.Machine
end

section
/-! PROOF. The statements on the state of the machine: its status, its step counter, its flags and its call level (10_state.md). -/

namespace Sys2Proof.Proofs
open Sys2Proof Sys2Proof.Machine

/-- Settles O8: a halted machine steps to itself, any other runs an instruction or rejects the fetch, and a load sets the status. -/
theorem statusFollowsTheStateMachine : Obligations.StatusFollowsTheStateMachine := by
  refine ⟨fun s t ht => ⟨fun hs => ?halted, fun hs => step_status hs ht⟩, fun s stream hl => ?load⟩
  case halted => exact (Host.Outcome.next.inj ((step_of_isHalted hs).symm.trans ht)).symm
  case load => rw [load_of_accepted hl]; rfl

/-- Settles O10: every handler leaves the counter alone and does not see it, and the end of the step counts. -/
theorem stepCounterCountsCompletedSteps : Obligations.StepCounterCountsCompletedSteps :=
  ⟨fun _ _ hl => by rw [load_of_accepted hl]; rfl, fun _ _ => step_steps, fun _ n _ ht => step_setSteps ht n⟩

/-- Settles O11: the handler reports a full triple, which overwrites all three flags, or none. -/
theorem flagsAreWrittenByTheListedInstructionsOnly : Obligations.FlagsAreWrittenByTheListedInstructionsOnly :=
  fun _ s _ hi ht =>
    ⟨fun hw o n z => (exec_setFlags hi hw s o n z).trans ht, fun hw => exec_sameFlags hi hw ht⟩

/-- Settles O12: all handlers but those of CALL and RET commute with setting the call level. -/
theorem callLevelIsWrittenByCallAndRetOnly : Obligations.CallLevelIsWrittenByCallAndRetOnly := by
  refine ⟨fun s stream hl => ?load, fun i s t hi ht => ⟨?call, ?ret, fun hcall hret => ⟨?kept, fun n => ?unseen⟩⟩⟩
  case load => rw [load_of_accepted hl]; rfl
  case call =>
    rintro adr x rfl
    exact exec_call_level hi ht
  case ret =>
    rintro rfl
    exact exec_ret_level ht
  case kept => exact exec_level hi ⟨hcall, hret⟩ ht
  case unseen => exact (exec_setLevel hi ⟨hcall, hret⟩ s n).trans (congrArg (mapNext _) ht)

/-- Settles O19: the fields that a load sets. -/
theorem flagsAfterLoad : Obligations.FlagsAfterLoad := by
  intro s stream hl
  rw [load_of_accepted hl]
  exact ⟨rfl, rfl, rfl, State.loaded_fr s stream⟩

end Sys2Proof.Proofs
end

section
/-! SUPPORT. R50, R53: the memory as reads see it. -/

namespace Sys2Proof.Machine

/-- R50: a memory in the canonical form lists no address past the last. -/
theorem Memory.read_eq_unlisted_of_memWords_le {lo a : Nat} {m : Memory} (h : Memory.wfFrom lo m = true)
    (ha : memWords ≤ a) : m.read a = Memory.unlisted := by
  induction m generalizing lo with
  | nil => rfl
  | cons c rest ih =>
    obtain ⟨k, v⟩ := c
    simp only [Memory.wfFrom, Bool.and_eq_true, decide_eq_true_eq] at h
    obtain ⟨⟨⟨-, hk⟩, -⟩, hrest⟩ := h
    rw [Memory.read_cons, if_neg (by omega)]
    exact ih hrest

/-- R53: the words that an address of 16 bits reaches are the whole of a memory in the canonical form. -/
theorem Memory.eq_of_read_word {m m' : Memory} (h : m.wf = true) (h' : m'.wf = true)
    (hr : ∀ a : Word, m.read a.toNat = m'.read a.toNat) : m = m' := by
  refine Memory.eq_of_read h h' fun a => ?_
  rcases Nat.lt_or_ge a memWords with ha | ha
  · have hword : (BitVec.ofNat 16 a).toNat = a := Nat.mod_eq_of_lt ha
    simpa only [hword] using hr (BitVec.ofNat 16 a)
  · rw [Memory.read_eq_unlisted_of_memWords_le h ha, Memory.read_eq_unlisted_of_memWords_le h' ha]

/-- The same memory reads the same. -/
theorem SameMem.of_mem_eq {s t : State} (h : t.mem = s.mem) (except : List Word) : SameMem except s t :=
  fun a _ => congrArg (·.read a.toNat) h

end Sys2Proof.Machine
end

section
/-! SUPPORT. R41, R56, R272, R273: the next states of an instruction, with what they say of the memory and of a halt. -/

namespace Sys2Proof.Machine

/-- R56: the instructions that write memory. -/
inductive WritesMemory : Instr → Prop
  | st (r : RegField) (adr : Word) (x : RegField) : WritesMemory (.st r adr x)
  | push (adr : Word) (x : RegField) : WritesMemory (.push adr x)
  | call (adr : Word) (x : RegField) : WritesMemory (.call adr x)
  | rpush : WritesMemory .rpush
  | input (buf lenadr : Word) : WritesMemory (.input buf lenadr)

/-- R41, R56, R272, R273: what the next state of an instruction can be. Either the machine runs, and the memory is the same or
was written in its canonical form by an instruction that writes memory, or the machine halts for one of two reasons. -/
inductive ExecNext (i : Instr) (s : State) : State → Prop
  | ran {t : State} (hstatus : t.status = .running)
      (hmem : t.mem = s.mem ∨ (WritesMemory i ∧ (s.mem.wf = true → t.mem.wf = true))) : ExecNext i s t
  | machineExit (hi : i = .ret) (hlevel : s.level = 0) : ExecNext i s (s.haltedBy .machineExit)
  | invalidRegister (hi : i.wf = false) : ExecNext i s (s.haltedBy (.invalidRegister s.pr))

/-- R79: with the field in range, the next state is the handler's. -/
theorem exists_next_of_withReg {f : RegField} {s t : State} {handler : Reg → StepOutcome}
    (hf : [f].all RegField.ok = true) (ht : withReg f s handler = .next t) : ∃ q, handler q = .next t := by
  obtain ⟨q, hq⟩ := exists_names_of_ok (f := f) (by simpa using hf)
  exact ⟨q, (withReg_of_names hq s handler).symm.trans ht⟩

/-- R79: with both fields in range, the next state is the handler's. -/
theorem exists_next_of_withRegs {f g : RegField} {s t : State} {handler : Reg → Reg → StepOutcome}
    (hfg : [f, g].all RegField.ok = true) (ht : withRegs f g s handler = .next t) : ∃ p q, handler p q = .next t := by
  obtain ⟨hf, hg⟩ : f.ok = true ∧ g.ok = true := by simpa using hfg
  obtain ⟨p, hp⟩ := exists_next_of_withReg (by simpa using hf) ht
  exact ⟨p, exists_next_of_withReg (by simpa using hg) hp⟩

/-- R87, R90: a handler that falls through has left the memory of the next state. -/
theorem next_of_complete_continue {shape : Shape} {f : Option FlagTriple} {s t : State}
    (ht : complete shape s (.continue_ f) = .next t) : t.status = .running ∧ t.mem = s.mem := by
  rw [complete_continue] at ht
  cases ht
  simp

/-- R200: a branch runs on and writes no memory, taken or not. -/
theorem ExecNext.of_branchIf {i : Instr} {condition : Bool} {adr : Word} {x : RegField} {s t : State}
    (hx : [x].all RegField.ok = true) (ht : branchIf condition adr x s = .next t) : ExecNext i s t := by
  obtain ⟨q, h⟩ := exists_next_of_withReg hx ht
  cases condition <;> cases h <;> exact .ran rfl (.inl rfl)

/-- R223: RET runs on, or ends the program at call level 0. -/
theorem execRet_next {s t : State} (ht : execRet s = .next t) : ExecNext .ret s t := by
  unfold execRet at ht
  cases hlevel : s.level with
  | zero =>
    rw [hlevel] at ht
    cases ht
    exact .machineExit rfl hlevel
  | succ level =>
    rw [hlevel] at ht
    cases ht
    exact .ran rfl (.inl rfl)

/-- R251: IN runs on when the provider answers, and stores the line. -/
theorem execInput_next {buf lenadr : Word} {s t : State} (ht : execInput buf lenadr s = .next t) :
    ExecNext (.input buf lenadr) s t := by
  unfold execInput at ht
  cases hanswer : s.nextAnswer with
  | line codes =>
    rw [hanswer] at ht
    cases ht
    exact .ran rfl (.inr ⟨.input buf lenadr, fun hm => State.storeLine_wf (s := s.consumeAnswer) hm _ _ _ _⟩)
  | never =>
    rw [hanswer] at ht
    cases ht

/-- R41, R56: what every instruction can do. -/
theorem exec_next {i : Instr} {s t : State} (ht : exec i s = .next t) : ExecNext i s t := by
  cases hi : i.wf with
  | false =>
    rw [exec_of_not_wf hi] at ht
    cases ht
    exact .invalidRegister hi
  | true =>
    cases i with
    | ldAdr r adr x | lad r adr x
    | addaAdr r adr x | subaAdr r adr x | addlAdr r adr x | sublAdr r adr x
    | andAdr r adr x | orAdr r adr x | xorAdr r adr x | cpaAdr r adr x | cplAdr r adr x
    | sla r adr x | sra r adr x | sll r adr x | srl r adr x =>
      obtain ⟨p, q, h⟩ := exists_next_of_withRegs hi ht
      cases h
      exact .ran rfl (.inl rfl)
    | ldReg r1 r2 | addaReg r1 r2 | subaReg r1 r2 | addlReg r1 r2 | sublReg r1 r2
    | andReg r1 r2 | orReg r1 r2 | xorReg r1 r2 | cpaReg r1 r2 | cplReg r1 r2 =>
      obtain ⟨p, q, h⟩ := exists_next_of_withRegs hi ht
      cases h
      exact .ran rfl (.inl rfl)
    | st r adr x =>
      obtain ⟨p, q, h⟩ := exists_next_of_withRegs hi ht
      cases h
      exact .ran rfl (.inr ⟨.st r adr x, fun hm => State.writeMem_wf hm _ _⟩)
    | jmi adr x | jnz adr x | jze adr x | jump adr x | jpl adr x | jov adr x => exact .of_branchIf hi ht
    | push adr x =>
      obtain ⟨q, h⟩ := exists_next_of_withReg hi ht
      cases h
      exact .ran rfl (.inr ⟨.push adr x, fun hm => State.pushWord_wf hm _⟩)
    | call adr x =>
      obtain ⟨q, h⟩ := exists_next_of_withReg hi ht
      cases h
      exact .ran rfl (.inr ⟨.call adr x, fun hm => State.pushWord_wf hm _⟩)
    | pop r | svc adr x =>
      obtain ⟨q, h⟩ := exists_next_of_withReg hi ht
      cases h
      exact .ran rfl (.inl rfl)
    | ret => exact execRet_next ht
    | input buf lenadr => exact execInput_next ht
    | output buf lenadr =>
      cases ht
      exact .ran rfl (.inl rfl)
    | rpush =>
      cases ht
      exact .ran rfl (.inr ⟨.rpush, fun hm => State.foldl_pushReg_wf hm savedRegs⟩)
    | rpop =>
      obtain ⟨hstatus, hmem⟩ := next_of_complete_continue (s := savedRegs.reverse.foldl State.popReg s) ht
      exact .ran hstatus (.inl (hmem.trans (s.foldl_popReg_mem savedRegs.reverse)))

/-- R56: an instruction that does not write memory leaves it. -/
theorem exec_mem {i : Instr} {s t : State} (hw : ¬ WritesMemory i) (ht : exec i s = .next t) : t.mem = s.mem := by
  cases exec_next ht with
  | ran _ hmem => exact hmem.resolve_right fun h => hw h.1
  | machineExit | invalidRegister => rfl

/-- R284: no instruction changes the breakpoint set. -/
theorem exec_breakpoints {i : Instr} {s t : State} (ht : exec i s = .next t) : t.breakpoints = s.breakpoints :=
  (congrArg State.breakpoints
    (HostUpdate.apply_next_eq_self (h := { breakpoints := fun _ => s.breakpoints })
      ⟨.inl rfl, .inr ⟨rfl, rfl⟩, .inr rfl⟩ rfl ht)).symm

/-- R30: an instruction adds one to the call level at most. -/
theorem exec_level_le {i : Instr} {s t : State} (ht : exec i s = .next t) : t.level ≤ s.level + 1 := by
  cases hi : i.wf with
  | false =>
    rw [exec_of_not_wf hi] at ht
    cases ht
    exact Nat.le_succ s.level
  | true =>
    by_cases hcall : ∃ adr x, i = .call adr x
    · obtain ⟨adr, x, rfl⟩ := hcall
      exact (exec_call_level hi ht).le
    · by_cases hret : i = .ret
      · subst hret
        rw [exec_ret_level ht]
        omega
      · have hkeeps : KeepsLevel i := ⟨fun adr x h => hcall ⟨adr, x, h⟩, hret⟩
        rw [exec_level hi hkeeps ht]
        exact Nat.le_succ s.level

end Sys2Proof.Machine
end

section
/-! SUPPORT. The invariant of the machine (Inv) at the end of an instruction. -/

namespace Sys2Proof.Machine

/-- R271 to R273: a halt leaves the instruction at PR. -/
@[simp] theorem State.haltedBy_fetch (s : State) (r : HaltReason) : (s.haltedBy r).fetch = s.fetch :=
  State.fetch_congr rfl rfl rfl

namespace Inv

variable {s : State} (h : Inv s)
include h

/-- A halt that agrees with the rest of the state keeps the invariant. -/
theorem haltedBy {r : HaltReason} (hr : StatusAgrees (s.haltedBy r)) : Inv (s.haltedBy r) :=
  ⟨h.mem, h.level, hr, h.breakpoints, h.params⟩

/-- R271: InvalidOperation keeps the invariant, PR standing at an opcode without a row. -/
theorem invalidOperation {e : DecodeError} (hf : s.fetch = .error e) :
    Inv (s.haltedBy (.invalidOperation s.pr)) := by
  rcases s.fetch_cases with ⟨_, _, -, -, hok⟩ | ⟨hrow, -⟩
  · simp [hok] at hf
  · exact h.haltedBy ⟨rfl, hrow⟩

/-- R41: an instruction after which the machine runs keeps the invariant. -/
theorem of_running {i : Instr} {t : State} (ht : exec i s = .next t) (hstatus : t.status = .running)
    (hmem : t.mem.wf = true) : Inv t := by
  have hsteps : t.steps = s.steps + 1 := by rw [exec_steps ht, if_pos hstatus]
  refine ⟨hmem, ?level, ?status, exec_breakpoints ht ▸ h.breakpoints, exec_params ht ▸ h.params⟩
  case level =>
    calc t.level ≤ s.level + 1 := exec_level_le ht
      _ ≤ s.steps + 1 := Nat.succ_le_succ h.level
      _ = t.steps := hsteps.symm
  case status =>
    rw [StatusAgrees, hstatus]
    exact hsteps ▸ Nat.succ_pos s.steps

/-- The instruction at PR keeps the invariant. -/
theorem of_exec {i : Instr} {t : State} (hf : s.fetch = .ok i) (ht : exec i s = .next t) : Inv t := by
  cases exec_next ht with
  | ran hstatus hmem =>
    refine h.of_running ht hstatus ?_
    rcases hmem with hsame | ⟨-, hwf⟩
    · exact hsame ▸ h.mem
    · exact hwf h.mem
  | machineExit hi hlevel => exact h.haltedBy ⟨hlevel, by rw [State.haltedBy_fetch, hf, hi]⟩
  | invalidRegister hi => exact h.haltedBy ⟨rfl, i, by rw [State.haltedBy_fetch, hf], hi⟩

end Inv

end Sys2Proof.Machine
end

section
/-! PROOF. The statements on the memory and on the invariant of the machine (20_memory.md). -/

namespace Sys2Proof.Proofs
open Sys2Proof Sys2Proof.Machine

/-- Settles O25: a step is nothing, the instruction at PR or InvalidOperation, and each keeps the invariant. -/
theorem stepKeepsTheInvariant : Obligations.StepKeepsTheInvariant := by
  intro s t h ht
  rcases step_cases s with ⟨-, e⟩ | ⟨i, -, hf, e⟩ | ⟨_, -, hf, e⟩ <;> rw [e] at ht
  · cases ht
    exact h
  · exact h.of_exec hf ht
  · cases ht
    exact h.invalidOperation hf

/-- Settles O17: the instructions set apart are those that write memory, and any other leaves it. -/
theorem otherInstructionsLeaveMemory : Obligations.OtherInstructionsLeaveMemory := by
  intro i s t hst hpush hcall hrpush hinput ht
  refine .of_mem_eq (exec_mem (fun hw => ?_) ht) []
  cases hw with
  | st r adr x => exact hst r adr x rfl
  | push adr x => exact hpush adr x rfl
  | call adr x => exact hcall adr x rfl
  | rpush => exact hrpush rfl
  | input buf lenadr => exact hinput buf lenadr rfl

/-- Settles O26: every address that holds a word is one that a read can name. -/
theorem equalReadsAreEqualMemories : Obligations.EqualReadsAreEqualMemories :=
  fun _ _ hs ht hsame => Memory.eq_of_read_word ht.mem hs.mem fun a => hsame a List.not_mem_nil

end Sys2Proof.Proofs
end

section
/-! SUPPORT. R70 to R83: a row of the dispatch table as a relation between the words it reads and the instruction it makes, on which
the decoder and the encoder meet. -/

namespace Sys2Proof
open Machine

/-! The fields of word 1 and the bits a shape ignores. -/

/-- R72: the high nibble as a shape keeps it, 0 where the shape ignores it. -/
def Shape.keepHigh : Shape → RegField → RegField
  | .r, high | .rr, high | .rax, high => high
  | .n, _ | .ax, _ | .s, _ => 0

/-- R72: the low nibble as a shape keeps it, 0 where the shape ignores it. -/
def Shape.keepLow : Shape → RegField → RegField
  | .rr, low | .ax, low | .rax, low => low
  | .n, _ | .r, _ | .s, _ => 0

/-- A word 1 masked by a word 1 is masked field by field. -/
theorem word1_and_word1 (op op' : Byte) (high high' low low' : RegField) :
    word1 op high low &&& word1 op' high' low' = word1 (op &&& op') (high &&& high') (low &&& low') := by
  have hupper : (op ++ high) &&& (op' ++ high') = (op &&& op') ++ (high &&& high') := BitVec.and_append
  calc _ = ((op ++ high) &&& (op' ++ high')) ++ (low &&& low') :=
        BitVec.and_append (x₁ := op ++ high) (x₂ := op' ++ high')
    _ = _ := by rw [hupper, word1]

/-- R72: the bits that a shape uses are the opcode byte and the nibbles it keeps. -/
theorem usedBits_eq (sh : Shape) : usedBits sh = word1 0xFF (sh.keepHigh 0xF) (sh.keepLow 0xF) := by
  cases sh <;> rfl

/-- R72: a shape keeps the high nibble or ignores all of it. -/
theorem Shape.and_keepHigh (sh : Shape) (high : RegField) : high &&& sh.keepHigh 0xF = sh.keepHigh high := by
  cases sh with
  | n | ax | s => exact BitVec.and_zero
  | r | rr | rax => exact BitVec.and_allOnes

/-- R72: a shape keeps the low nibble or ignores all of it. -/
theorem Shape.and_keepLow (sh : Shape) (low : RegField) : low &&& sh.keepLow 0xF = sh.keepLow low := by
  cases sh with
  | n | r | s => exact BitVec.and_zero
  | rr | ax | rax => exact BitVec.and_allOnes

/-- R72, R73: the used bits of a word, by its fields. -/
theorem and_usedBits (w1 : Word) (sh : Shape) :
    w1 &&& usedBits sh = word1 (opcodeByte w1) (sh.keepHigh (highNibble w1)) (sh.keepLow (lowNibble w1)) := by
  have hop : opcodeByte w1 &&& 0xFF = opcodeByte w1 := BitVec.and_allOnes
  conv_lhs => rw [← word1_fields w1, usedBits_eq, word1_and_word1, hop, sh.and_keepHigh, sh.and_keepLow]

/-- R73: words that differ in ignored bits alone have the same fields but for the nibbles that the shape ignores. -/
theorem fields_of_and_usedBits_eq {w w' : Word} {sh : Shape} (h : w &&& usedBits sh = w' &&& usedBits sh) :
    opcodeByte w = opcodeByte w' ∧ sh.keepHigh (highNibble w) = sh.keepHigh (highNibble w') ∧
      sh.keepLow (lowNibble w) = sh.keepLow (lowNibble w') := by
  rw [and_usedBits, and_usedBits] at h
  exact ⟨by simpa using congrArg opcodeByte h, by simpa using congrArg highNibble h, by simpa using congrArg lowNibble h⟩

/-! What a row reads. -/

/-- R72: the instruction a row makes from the two nibbles of word 1 and the words after it. -/
inductive OpRow.Reads (high low : RegField) : OpRow → List Word → Instr → Prop
  | n (i : Instr) : Reads high low (.n i) [] i
  | r (mk : RegField → Instr) : Reads high low (.r mk) [] (mk high)
  | rr (mk : RegField → RegField → Instr) : Reads high low (.rr mk) [] (mk high low)
  | ax (mk : Word → RegField → Instr) (adr : Word) : Reads high low (.ax mk) [adr] (mk adr low)
  | rax (mk : RegField → Word → RegField → Instr) (adr : Word) : Reads high low (.rax mk) [adr] (mk high adr low)
  | s (mk : Word → Word → Instr) (buf lenadr : Word) : Reads high low (.s mk) [buf, lenadr] (mk buf lenadr)

/-- R72: the operands of a row are what it reads from the nibbles of word 1 and the first words after it. -/
theorem OpRow.operands_eq_ok_iff {row : OpRow} {w1 : Word} {ws rest : List Word} {i : Instr} :
    row.operands w1 ws = .ok (i, rest) ↔
      ∃ operands, ws = operands ++ rest ∧ row.Reads (highNibble w1) (lowNibble w1) operands i := by
  constructor
  · intro h
    cases row with
    | n | r | rr => cases h; exact ⟨[], rfl, by constructor⟩
    | ax | rax =>
      match ws, h with
      | [adr], h | adr :: _ :: _, h => cases h; exact ⟨[adr], rfl, by constructor⟩
    | s =>
      match ws, h with
      | buf :: lenadr :: _, h => cases h; exact ⟨[buf, lenadr], rfl, by constructor⟩
  · rintro ⟨operands, rfl, h⟩
    cases h <;> rfl

/-- R71: a row reads the words after word 1 that its shape has. -/
theorem OpRow.Reads.length {row : OpRow} {high low : RegField} {operands : List Word} {i : Instr}
    (h : row.Reads high low operands i) : operands.length + 1 = row.shape.length := by
  cases h <;> rfl

/-- R73: a row does not look at the nibbles that its shape ignores. -/
theorem OpRow.Reads.congr {row : OpRow} {high high' low low' : RegField} {operands : List Word} {i : Instr}
    (h : row.Reads high low operands i) (hh : row.shape.keepHigh high = row.shape.keepHigh high')
    (hl : row.shape.keepLow low = row.shape.keepLow low') : row.Reads high' low' operands i := by
  cases h with
  | n | s => constructor
  | r => cases hh; constructor
  | ax => cases hl; constructor
  | rr | rax => cases hh; cases hl; constructor

/-! The dispatch table. -/

/-- R80: every instruction is read by a row, under the opcode byte and from the words that the encoder gives it. -/
theorem Instr.exists_row {p : Params} (hp : p.ok = true) (i : Instr) :
    ∃ op row high low operands, encode p i = word1 op high low :: operands ∧
      OpRow.Reads high low row operands i ∧ opcodeRow p op = some row := by
  cases i with
  | ldAdr | st | lad | addaAdr | subaAdr | addlAdr | sublAdr | andAdr | orAdr | xorAdr | cpaAdr | cplAdr
  | sla | sra | sll | srl => exact ⟨_, _, _, _, _, rfl, .rax _ _, opcodeRow_fixed p rfl⟩
  | ldReg | addaReg | subaReg | addlReg | sublReg | andReg | orReg | xorReg | cpaReg | cplReg =>
    exact ⟨_, _, _, _, _, rfl, .rr _, opcodeRow_fixed p rfl⟩
  | jmi | jnz | jze | jump | jpl | jov | push | call | svc =>
    exact ⟨_, _, _, _, _, rfl, .ax _ _, opcodeRow_fixed p rfl⟩
  | pop => exact ⟨_, _, _, _, _, rfl, .r _, opcodeRow_fixed p rfl⟩
  | ret => exact ⟨_, _, _, _, _, rfl, .n _, opcodeRow_fixed p rfl⟩
  | input => exact ⟨_, _, _, _, _, rfl, .s _ _ _, opcodeRow_opcIn hp⟩
  | output => exact ⟨_, _, _, _, _, rfl, .s _ _ _, opcodeRow_opcOut hp⟩
  | rpush => exact ⟨_, _, _, _, _, rfl, .n _, opcodeRow_opcRpush hp⟩
  | rpop => exact ⟨_, _, _, _, _, rfl, .n _, opcodeRow_opcRpop hp⟩

/-- R79: the register fields that a shape uses, of the two nibbles of word 1. -/
def Shape.usedFields : Shape → RegField → RegField → List RegField
  | .n, _, _ | .s, _, _ => []
  | .r, high, _ => [high]
  | .ax, _, low => [low]
  | .rr, high, low | .rax, high, low => [high, low]

/-- R72, R79, R80: what the model says of an instruction agrees with the row, of opcode byte `op`, that reads it. -/
structure Instr.Agrees (p : Params) (op : Byte) (sh : Shape) (high low : RegField) (operands : List Word) (i : Instr) : Prop where
  shape : i.shape = sh
  regFields : i.regFields = sh.usedFields high low
  encode : encode p i = word1 op (sh.keepHigh high) (sh.keepLow low) :: operands

/-- A row of the table reads no other instructions than those that agree with it. -/
def OpRow.ReadsItsOwn (p : Params) (entry : Byte × OpRow) : Prop :=
  ∀ high low operands i, entry.2.Reads high low operands i → i.Agrees p entry.1 entry.2.shape high low operands

/-- R80: every row of the dispatch table reads instructions that agree with it. -/
theorem opcodeTable_readsItsOwn (p : Params) : ∀ entry ∈ opcodeTable p, OpRow.ReadsItsOwn p entry := by
  simp only [opcodeTable, fixedRows, loadStoreRows, arithRows, bitwiseRows, compareRows, shiftRows, branchRows, stackRows,
    systemRows, paramRows, List.forall_mem_append, List.forall_mem_cons, List.not_mem_nil,
    false_imp_iff, implies_true, and_true]
  and_intros
  all_goals
    intro high low operands i h
    cases h
    exact ⟨rfl, rfl, rfl⟩

/-- R80, R83: a row found is a row of the table. -/
theorem mem_of_opcodeRow {p : Params} {op : Byte} {row : OpRow} (h : opcodeRow p op = some row) :
    (op, row) ∈ opcodeTable p := by
  have h0 : op ≠ 0 := fun e => nomatch e ▸ h
  rw [opcodeRow_of_ne p h0] at h
  obtain ⟨before, after, htable, -⟩ := List.lookup_eq_some_iff.mp h
  simp [htable]

/-- R72, R79, R80: what is read by the row of an opcode byte agrees with it. -/
theorem OpRow.Reads.agrees {p : Params} {op : Byte} {row : OpRow} {high low : RegField} {operands : List Word} {i : Instr}
    (h : row.Reads high low operands i) (hrow : opcodeRow p op = some row) : i.Agrees p op row.shape high low operands :=
  opcodeTable_readsItsOwn p _ (mem_of_opcodeRow hrow) high low operands i h

/-! The decoder. -/

/-- R70, R72: words decode to what the row of their opcode byte reads. -/
theorem decode_eq_ok_iff {p : Params} {ws rest : List Word} {i : Instr} :
    decode p ws = .ok (i, rest) ↔
      ∃ w1 operands row, ws = w1 :: operands ++ rest ∧ opcodeRow p (opcodeByte w1) = some row ∧
        row.Reads (highNibble w1) (lowNibble w1) operands i := by
  constructor
  · intro h
    match ws, h with
    | w1 :: ws, h =>
      rw [decode] at h
      cases hrow : opcodeRow p (opcodeByte w1) with
      | none => simp [hrow] at h
      | some row =>
        rw [hrow] at h
        obtain ⟨operands, rfl, hreads⟩ := OpRow.operands_eq_ok_iff.mp h
        exact ⟨w1, operands, row, rfl, hrow, hreads⟩
  · rintro ⟨w1, operands, row, rfl, hrow, hreads⟩
    rw [List.cons_append, decode, hrow]
    exact OpRow.operands_eq_ok_iff.mpr ⟨operands, rfl, hreads⟩

/-- R82: words whose opcode byte has no row are no instruction. -/
theorem decode_of_opcodeRow_none {p : Params} {w1 : Word} (h : opcodeRow p (opcodeByte w1) = none) (ws : List Word) :
    decode p (w1 :: ws) = .error (.unknownOpcode (opcodeByte w1)) := by
  rw [decode, h]

end Sys2Proof
end

section
/-! PROOF. The statements on the encoding alone (30_encoding.md, R70 to R83). -/

namespace Sys2Proof.Proofs
open Sys2Proof Sys2Proof.Machine

/-- Settles O1: every instruction has a row, which reads it from the encoder's words. -/
theorem decodeOfEncodeIsTheInstruction : Obligations.DecodeOfEncodeIsTheInstruction := by
  intro p hp i rest
  obtain ⟨op, row, high, low, operands, hencode, hreads, hrow⟩ := i.exists_row hp
  exact decode_eq_ok_iff.mpr
    ⟨word1 op high low, operands, row, by rw [hencode], by rwa [opcodeByte_word1], by simpa using hreads⟩

/-- Settles O2: what the row at word 1 reads agrees with that row. -/
theorem decodedWordsAreTheEncodingOfTheInstruction : Obligations.DecodedWordsAreTheEncodingOfTheInstruction := by
  intro p ws i rest h
  obtain ⟨w1, operands, row, hws, hrow, hreads⟩ := decode_eq_ok_iff.mp h
  obtain ⟨hshape, -, hencode⟩ := hreads.agrees hrow
  refine ⟨w1, operands, hws, ?length, ?words⟩
  case length => rw [hreads.length, Instr.length, hshape]
  case words => rw [hencode, hshape, and_usedBits]

/-- Settles O3: three words are enough for every row, and no row looks at the bits that its shape ignores. -/
theorem decodingToleratesAnyBitPattern : Obligations.DecodingToleratesAnyBitPattern := by
  refine fun p => ⟨fun w1 w2 w3 => ?total, fun w w' ws i rest h hused => ?ignored⟩
  case total =>
    cases hrow : opcodeRow p (opcodeByte w1) with
    | none => exact .inr (decode_of_opcodeRow_none hrow [w2, w3])
    | some row =>
      have hlength : row.shape.length ≤ 3 := by cases row.shape <;> decide
      obtain ⟨i, hi⟩ := row.operands_ok w1 [w2, w3] hlength
      exact .inl ⟨i, _, by rw [decode, hrow]; exact hi⟩
  case ignored =>
    obtain ⟨w1, operands, row, hws, hrow, hreads⟩ := decode_eq_ok_iff.mp h
    obtain ⟨rfl, rfl⟩ := List.cons.inj hws
    obtain ⟨hop, hhigh, hlow⟩ := fields_of_and_usedBits_eq ((hreads.agrees hrow).shape ▸ hused)
    exact decode_eq_ok_iff.mpr ⟨w', operands, row, rfl, hop ▸ hrow, hreads.congr hhigh hlow⟩

/-- Settles O4: the words decode by the table's rows. -/
theorem wordsOfTheTableDecode : Obligations.WordsOfTheTableDecode := by
  unfold Obligations.WordsOfTheTableDecode
  decide

end Sys2Proof.Proofs
end

section
/-! SUPPORT. R79, R82, R87: a step, by the row of the opcode byte at PR. -/

namespace Sys2Proof.Machine

/-- R7: the first words from an address on. -/
theorem State.take_wordsFrom (s : State) {k n : Nat} (h : k ≤ n) (a : Word) :
    (s.wordsFrom a n).take k = s.wordsFrom a k := by
  induction k generalizing a n with
  | zero => rfl
  | succ k ih =>
    obtain ⟨n, rfl⟩ : ∃ m, n = m + 1 := ⟨n - 1, by omega⟩
    rw [State.wordsFrom, List.take_succ_cons, ih (by omega), State.wordsFrom]

/-- R77, R87: the fetch answers what the row at PR reads from the words after PR. -/
theorem State.fetch_of_reads {s : State} {row : OpRow} {i : Instr}
    (hrow : opcodeRow s.params (opcodeByte (s.readMem s.pr)) = some row)
    (hreads : row.Reads (highNibble (s.readMem s.pr)) (lowNibble (s.readMem s.pr))
      (s.wordsFrom (s.pr + 1) (row.shape.length - 1)) i) : s.fetch = .ok i := by
  rcases s.fetch_cases with ⟨row', i', hrow', hoperands, hfetch⟩ | ⟨hnone, -⟩
  · cases hrow.symm.trans hrow'
    have hi : row.operands (s.readMem s.pr) (s.wordsFrom (s.pr + 1) (row.shape.length - 1)) = .ok (i, []) :=
      OpRow.operands_eq_ok_iff.mpr ⟨_, (List.append_nil _).symm, hreads⟩
    cases hi.symm.trans hoperands
    exact hfetch
  · cases hrow.symm.trans hnone

/-- R52, R87: the three words that the longest instruction at an address takes. -/
theorem State.wordsFrom_three (s : State) (a : Word) :
    s.wordsFrom a 3 = [s.readMem a, s.readMem (a + 1), s.readMem (a + 2)] := by
  have htwo : a + 1 + 1 = a + 2 := BitVec.add_assoc a 1 1
  rw [← htwo]
  rfl

/-- R87: an instruction that decodes from as many words at PR as any shape has is the one fetched. -/
theorem State.fetch_of_decode {s : State} {i : Instr} {rest : List Word}
    (h : decode s.params (s.wordsFrom s.pr 3) = .ok (i, rest)) : s.fetch = .ok i := by
  obtain ⟨w1, operands, row, hws, hrow, hreads⟩ := decode_eq_ok_iff.mp h
  obtain ⟨rfl, hrest⟩ := List.cons.inj hws
  change s.wordsFrom (s.pr + 1) 2 = operands ++ rest at hrest
  have hlength : operands.length = row.shape.length - 1 := Nat.eq_sub_of_add_eq hreads.length
  have hle : operands.length ≤ 2 := by
    calc operands.length ≤ (operands ++ rest).length := by simp
      _ = 2 := by rw [← hrest, State.wordsFrom_length]
  have hoperands : s.wordsFrom (s.pr + 1) (row.shape.length - 1) = operands := by
    rw [← hlength, ← s.take_wordsFrom hle, hrest, List.take_left]
  exact State.fetch_of_reads hrow (hoperands ▸ hreads)

/-- R82, R271: a step at an opcode without a row raises InvalidOperation. -/
theorem step_of_opcodeRow_none {s : State} (hs : s.status.isHalted = false)
    (hrow : opcodeRow s.params (opcodeByte (s.readMem s.pr)) = none) :
    step s = .next (s.haltedBy (.invalidOperation s.pr)) := by
  rcases s.fetch_cases with ⟨row, _, hsome, -, -⟩ | ⟨-, hfetch⟩
  · cases hrow.symm.trans hsome
  · exact step_of_fetch_error hs hfetch

/-- R87: a step at an opcode with a row runs the instruction that the row reads there. -/
theorem step_of_opcodeRow_some {s : State} {row : OpRow} (hs : s.status.isHalted = false)
    (hrow : opcodeRow s.params (opcodeByte (s.readMem s.pr)) = some row) :
    ∃ operands i, row.Reads (highNibble (s.readMem s.pr)) (lowNibble (s.readMem s.pr)) operands i ∧
      step s = exec i s := by
  rcases s.fetch_cases with ⟨row', i, hrow', hoperands, hfetch⟩ | ⟨hnone, -⟩
  · cases hrow.symm.trans hrow'
    obtain ⟨operands, -, hreads⟩ := OpRow.operands_eq_ok_iff.mp hoperands
    exact ⟨operands, i, hreads, step_of_fetch_ok hs hfetch⟩
  · cases hrow.symm.trans hnone

/-- R271, R277: no instruction raises InvalidOperation. -/
theorem exec_ne_invalidOperation {i : Instr} {s t : State} {a : Word} (ht : exec i s = .next t) :
    t.status ≠ .halted (.invalidOperation a) := by
  rcases exec_status ht with h | rfl | rfl
  · simp [h]
  · simp
  · simp

/-- R79, R272: an instruction whose register fields are in range does not raise InvalidRegister. -/
theorem exec_ne_invalidRegister {i : Instr} {s t : State} {a : Word} (hi : i.wf = true) (ht : exec i s = .next t) :
    t.status ≠ .halted (.invalidRegister a) := by
  cases exec_next ht with
  | ran hstatus => simp [hstatus]
  | machineExit => simp
  | invalidRegister hwf => simp [hi] at hwf

/-- R79: an instruction is out of range when a used register field of its word 1 is. -/
theorem usedFieldOutOfRange_iff_not_wf {p : Params} {op : Byte} {sh : Shape} {w1 : Word} {operands : List Word} {i : Instr}
    (h : i.Agrees p op sh (highNibble w1) (lowNibble w1) operands) : UsedFieldOutOfRange sh w1 ↔ i.wf = false := by
  rw [Instr.wf, h.regFields]
  cases sh <;>
    simp [UsedFieldOutOfRange, Shape.usedFields, ← ok_eq_false_iff_namesNone, -Bool.and_eq_false_imp, Bool.and_eq_false_iff]

/-- R80, R83: the opcode bytes of the table are those of its rows, but for 0x00. -/
theorem tableOpcodes_eq (p : Params) :
    tableOpcodes p = (((opcodeTable p).map Prod.fst).filter (· ≠ 0)).map BitVec.toNat := by
  have hparam : [p.opcIn.toNat, p.opcOut.toNat, p.opcRpush.toNat, p.opcRpop.toNat].filter (· ≠ 0) =
      (((paramRows p).map Prod.fst).filter (· ≠ 0)).map BitVec.toNat := by
    have hnonzero : (fun n : Nat => decide (n ≠ 0)) ∘ BitVec.toNat = fun b : Byte => decide (b ≠ 0) :=
      funext fun b => by simp [← BitVec.toNat_inj]
    rw [← hnonzero, ← List.filter_map]
    rfl
  rw [tableOpcodes, hparam, opcodeTable, List.map_append, List.filter_append, List.map_append]
  rfl

/-- R82: an opcode byte has a row exactly when it is one of the table's. -/
theorem opcodeRow_eq_none_iff {p : Params} {op : Byte} : opcodeRow p op = none ↔ op.toNat ∉ tableOpcodes p := by
  rw [tableOpcodes_eq, List.mem_map_of_injective fun _ _ => BitVec.eq_of_toNat_eq, List.mem_filter, decide_eq_true_iff]
  by_cases h0 : op = 0
  · subst h0
    exact iff_of_true (opcodeRow_zero p) fun h => h.2 rfl
  · have hkeys : (∀ entry ∈ opcodeTable p, (op != entry.1) = true) ↔ op ∉ (opcodeTable p).map Prod.fst := by
      simp only [bne_iff_ne, List.mem_map, not_exists, not_and, ne_comm]
    rw [opcodeRow_of_ne p h0, List.lookup_eq_none_iff, hkeys, and_iff_left h0]

end Sys2Proof.Machine
end

section
/-! PROOF. The statements on the step at PR and on the effective address (30_encoding.md, R76, R79, R82, R83, R87). -/

namespace Sys2Proof.Proofs
open Sys2Proof Sys2Proof.Machine

/-- Settles O5: the instruction that the three words decode to is the one fetched. -/
theorem stepRunsTheInstructionAtPr : Obligations.StepRunsTheInstructionAtPr :=
  fun _ _ _ hs hdecode => step_of_fetch_ok hs (State.fetch_of_decode (State.wordsFrom_three _ _ ▸ hdecode))

/-- Settles O6: an opcode outside the table has no row, and an instruction does not raise InvalidOperation. -/
theorem unknownOpcodeRaisesInvalidOperation : Obligations.UnknownOpcodeRaisesInvalidOperation := by
  refine fun s hs => ⟨fun hop => step_of_opcodeRow_none hs (opcodeRow_eq_none_iff.mpr hop), fun hop t a ht => ?known⟩
  case known =>
    obtain ⟨row, hrow⟩ := Option.ne_none_iff_exists'.mp fun hnone => opcodeRow_eq_none_iff.mp hnone hop
    obtain ⟨_, i, -, hstep⟩ := step_of_opcodeRow_some hs hrow
    exact exec_ne_invalidOperation (hstep.symm.trans ht)

/-- Settles O7: the instruction's register fields are the nibbles that the shape of its row uses. -/
theorem fieldOutOfRangeRaisesInvalidRegister : Obligations.FieldOutOfRangeRaisesInvalidRegister := by
  intro s row hs hrow
  obtain ⟨operands, i, hreads, hstep⟩ := step_of_opcodeRow_some hs hrow
  rw [usedFieldOutOfRange_iff_not_wf (hreads.agrees hrow), Bool.not_eq_false, hstep]
  exact ⟨fun hi => exec_of_not_wf hi s, fun hi _ _ ht => exec_ne_invalidRegister hi ht⟩

/-- Settles O28: each handler computes the address from the state before its first write. -/
theorem effectiveAddressIsModulo65536 : Obligations.EffectiveAddressIsModulo65536 := by
  refine fun s adr => ⟨s.ea_gr0 adr, fun x hx => ?sum, fun f p hf => ⟨?ld, ?lad⟩, fun f hf => ⟨?push, ?call⟩⟩
  case sum => rw [State.ea_of_ne hx, BitVec.toNat_add]
  case ld => exact ⟨_, withRegs_of_names hf hf s _, by simp⟩
  case lad => exact ⟨_, withRegs_of_names hf hf s _, by simp⟩
  case push => exact ⟨_, withReg_of_names hf s _, by simp [State.ea, State.sp]⟩
  case call => exact ⟨_, withReg_of_names hf s _, by simp [State.ea, State.sp]⟩

/-- Settles O60: opcode 0x00 has no row, and a load without a payload leaves 0 at every address. -/
theorem opcodeZeroRaisesInvalidOperation : Obligations.OpcodeZeroRaisesInvalidOperation := by
  have hzero (s : State) (hs : s.status.isHalted = false) (hop : opcodeByte (s.readMem s.pr) = 0) :
      step s = .next (s.haltedBy (.invalidOperation s.pr)) :=
    step_of_opcodeRow_none hs (by rw [hop]; rfl)
  refine ⟨hzero, fun s stream hlength => ⟨s.loaded stream, ?accepted, ?pr, ?step⟩⟩
  case accepted => simp [load, loadError, hlength, headerWords]
  case pr => simp [State.loaded, prHeaderIndex, hlength]
  case step =>
    have hmem : (s.loaded stream).mem = [] := by simp [State.loaded, headerWords, ← hlength, Memory.ofWords]
    exact hzero _ rfl (by rw [State.readMem, hmem, Memory.read_nil]; rfl)

end Sys2Proof.Proofs
end

section
/-! SUPPORT. R101 to R104, R109: the word and the flags of an add or subtract. -/

namespace Sys2Proof.Machine

/-- R6: the word of the unsigned view. -/
@[simp] theorem u16_unsigned (w : Word) : u16 (unsigned w) = w := by
  rw [u16, unsigned, BitVec.ofInt_natCast, BitVec.ofNat_toNat, BitVec.setWidth_eq]

/-- R6, R52: the word of a sum is the sum modulo 65536. -/
theorem u16_add (i j : Int) : u16 (i + j) = u16 i + u16 j := BitVec.ofInt_add i j

/-- R6, R52: the word of a difference is the difference modulo 65536. -/
theorem u16_sub (i j : Int) : u16 (i - j) = u16 i - u16 j := by
  rw [Int.sub_eq_add_neg, u16_add, u16, u16, BitVec.ofInt_neg, ← BitVec.sub_eq_add_neg]
  rfl

/-- R6: an integer has the word 0 when it is a multiple of 65536. -/
theorem u16_eq_zero_iff {t : Int} : u16 t = 0 ↔ t % 65536 = 0 := by
  rw [← unsigned_u16, unsigned, Int.natCast_eq_zero, ← BitVec.toNat_inj]
  rfl

theorem signedOverflow_iff {t : Int} : signedOverflow t = true ↔ t < -32768 ∨ 32767 < t := by
  simp [signedOverflow]

theorem unsignedOverflow_iff {t : Int} : unsignedOverflow t = true ↔ t < 0 ∨ 65535 < t := by
  simp [unsignedOverflow]

/-- R104: an unsigned sum overflows upwards alone, by a carry. -/
theorem unsignedOverflow_add_iff {a b : Word} :
    unsignedOverflow (unsigned a + unsigned b) = true ↔ 65535 < a.toNat + b.toNat := by
  rw [unsignedOverflow_iff, unsigned, unsigned]
  omega

/-- R104: an unsigned difference overflows downwards alone, by a borrow. -/
theorem unsignedOverflow_sub_iff {a b : Word} :
    unsignedOverflow (unsigned a - unsigned b) = true ↔ a.toNat < b.toNat := by
  have ha := a.isLt
  rw [unsignedOverflow_iff, unsigned, unsigned]
  omega

/-- R102: an overflow test that tells a wrap to 0 from an exact 0. -/
def DetectsWrapToZero (overflow : Int → Bool) : Prop := ∀ t, u16 t = 0 → (overflow t = true ↔ t ≠ 0)

/-- R103: the multiples of 65536 in the signed range are 0 alone. -/
theorem signedOverflow_detectsWrapToZero : DetectsWrapToZero signedOverflow := by
  intro t ht
  rw [u16_eq_zero_iff] at ht
  rw [signedOverflow_iff]
  omega

/-- R104: the multiples of 65536 in the unsigned range are 0 alone. -/
theorem unsignedOverflow_detectsWrapToZero : DetectsWrapToZero unsignedOverflow := by
  intro t ht
  rw [u16_eq_zero_iff] at ht
  rw [unsignedOverflow_iff]
  omega

/-- R102: the bases differ on ZF when the word is 0 and the exact result is not. -/
theorem zeroFlag_ne_iff {t : Int} : zeroFlag .masked t (u16 t) ≠ zeroFlag .unmasked t (u16 t) ↔ t ≠ 0 ∧ u16 t = 0 := by
  by_cases ht : t = 0
  · subst ht
    decide
  · simp [zeroFlag, ht]

/-- R102: the two bases of an add or subtract differ on ZF alone, and there on a wrap to 0. -/
theorem arithResult_bases {overflow : Int → Bool} (ho : DetectsWrapToZero overflow) (t : Int) :
    let masked := arithResult .masked overflow t
    let unmasked := arithResult .unmasked overflow t
    masked.1 = unmasked.1 ∧ masked.2.of = unmasked.2.of ∧ masked.2.sf = unmasked.2.sf ∧
      (masked.2.zf ≠ unmasked.2.zf ↔ masked.2.of = some true ∧ masked.1 = 0) := by
  refine ⟨rfl, rfl, rfl, ?_⟩
  calc some (zeroFlag .masked t (u16 t)) ≠ some (zeroFlag .unmasked t (u16 t))
    _ ↔ zeroFlag .masked t (u16 t) ≠ zeroFlag .unmasked t (u16 t) := by rw [ne_eq, Option.some_inj]
    _ ↔ t ≠ 0 ∧ u16 t = 0 := zeroFlag_ne_iff
    _ ↔ overflow t = true ∧ u16 t = 0 := and_congr_left fun hw => (ho t hw).symm
    _ ↔ some (overflow t) = some true ∧ u16 t = 0 := by rw [Option.some_inj]

/-- R101, R102: under the masked basis SF and ZF depend on the stored word alone. -/
theorem arithResult_masked_congr {t t' : Int} (overflow overflow' : Int → Bool) (h : u16 t = u16 t') :
    (arithResult .masked overflow t).2.sf = (arithResult .masked overflow' t').2.sf ∧
    (arithResult .masked overflow t).2.zf = (arithResult .masked overflow' t').2.zf :=
  ⟨congrArg (fun w => some (signBit w)) h, congrArg (fun w => some (w == 0)) h⟩

/-! R109: the stored word of each function. -/

theorem adda_word (basis : ZfBasis) (a b : Word) : (adda basis a b).1 = a + b := by
  rw [adda, arithResult, u16_add, u16_s16, u16_s16]

theorem suba_word (basis : ZfBasis) (a b : Word) : (suba basis a b).1 = a - b := by
  rw [suba, arithResult, u16_sub, u16_s16, u16_s16]

theorem addl_word (basis : ZfBasis) (a b : Word) : (addl basis a b).1 = a + b := by
  rw [addl, arithResult, u16_add, u16_unsigned, u16_unsigned]

theorem subl_word (basis : ZfBasis) (a b : Word) : (subl basis a b).1 = a - b := by
  rw [subl, arithResult, u16_sub, u16_unsigned, u16_unsigned]

end Sys2Proof.Machine
end

section
/-! SUPPORT. R87, R140: the next state of an instruction that stores a word in a register with its flags. -/

namespace Sys2Proof.Machine

/-- R87, R140: the register takes the word, the flags are what the triple says, and the step falls through. -/
def State.storeResult (s : State) (shape : Shape) (p : Reg) (result : Word × FlagTriple) : State :=
  ((s.setReg p result.1).applyFlags (some result.2)).arrive (s.pr + BitVec.ofNat 16 shape.length)

/-- R140: the address form of an ALU function whose fields name registers. -/
theorem aluAdr_of_names {r x : RegField} {p q : Reg} (hr : Names r p) (hx : Names x q)
    (fn : Word → Word → Word × FlagTriple) (adr : Word) (s : State) :
    aluAdr fn r adr x s = .next (s.storeResult .rax p (fn (s.reg p) (s.readMem (s.ea adr q)))) :=
  withRegs_of_names hr hx s _

/-- R140: the register-pair form of an ALU function whose fields name registers. -/
theorem aluReg_of_names {r1 r2 : RegField} {p q : Reg} (h1 : Names r1 p) (h2 : Names r2 q)
    (fn : Word → Word → Word × FlagTriple) (s : State) :
    aluReg fn r1 r2 s = .next (s.storeResult .rr p (fn (s.reg p) (s.reg q))) :=
  withRegs_of_names h1 h2 s _

/-- R105: a load as an ALU function, which keeps its second operand. -/
def ldFn (_ b : Word) : Word × FlagTriple := (b, ldFlags b)

theorem exec_ldAdr (r : RegField) (adr : Word) (x : RegField) (s : State) :
    exec (.ldAdr r adr x) s = aluAdr ldFn r adr x s := rfl

theorem exec_ldReg (r1 r2 : RegField) (s : State) : exec (.ldReg r1 r2) s = aluReg ldFn r1 r2 s := rfl

/-- R87, R89, R140: what storing a result with a full triple does, and that the rest stays. -/
theorem State.storeResult_writesReg (s : State) (shape : Shape) (p : Reg) (w : Word) (o n z : Bool) :
    WritesReg shape.length p w o n z s (s.storeResult shape p (w, .full o n z)) := by
  refine ⟨?word, rfl, rfl, rfl, fun q hq => ?others, fun _ _ => rfl, ⟨rfl, rfl, rfl, rfl, rfl, rfl⟩, rfl, rfl, rfl⟩
  case word => simp [storeResult]
  case others => simp [storeResult, List.mem_singleton.not.mp hq]

/-- R103, R104: OF after an add or subtract. -/
theorem State.storeResult_arithResult_of_iff {s : State} {shape : Shape} {p : Reg} {basis : ZfBasis}
    {overflow : Int → Bool} {t : Int} :
    (s.storeResult shape p (arithResult basis overflow t)).of = true ↔ overflow t = true := Iff.rfl

/-- R105: OF, ZF and SF after a word is stored with the flags of a stored word. -/
theorem State.storeResult_storedFlags (s : State) (shape : Shape) (p : Reg) (w : Word) :
    let t := s.storeResult shape p (w, storedFlags false w)
    t.of = false ∧ t.zf = (t.reg p == 0) ∧ t.sf = (t.reg p).getLsbD 15 := by
  obtain ⟨hreg, hof, hsf, hzf, -⟩ := s.storeResult_writesReg shape p w false (signBit w) (w == 0)
  exact ⟨hof, hreg.symm ▸ hzf, hreg.symm ▸ hsf⟩

end Sys2Proof.Machine
end

section
/-! PROOF. The statements on the flags of the ALU (40_alu_flags.md, R102 to R105, R109, R110). -/

namespace Sys2Proof.Proofs
open Sys2Proof Sys2Proof.Machine

/-- Settles O29: a nonzero multiple of 65536 lies outside the signed and the unsigned range. -/
theorem zeroFlagBasesDifferOnlyOnAWrapToZero : Obligations.ZeroFlagBasesDifferOnlyOnAWrapToZero := by
  intro fn hfn a b
  simp only [List.mem_cons, List.not_mem_nil, or_false] at hfn
  rcases hfn with rfl | rfl | rfl | rfl
  case inl | inr.inl => exact arithResult_bases signedOverflow_detectsWrapToZero _
  case inr.inr.inl | inr.inr.inr => exact arithResult_bases unsignedOverflow_detectsWrapToZero _

/-- Settles O30: the word of an exact result does not depend on the view of the operands, and SF and ZF are the word's. -/
theorem arithmeticAndLogicalStoreTheSameWord : Obligations.ArithmeticAndLogicalStoreTheSameWord := by
  intro a b
  have hsum : (adda .masked a b).1 = (addl .masked a b).1 := by rw [adda_word, addl_word]
  have hdifference : (suba .masked a b).1 = (subl .masked a b).1 := by rw [suba_word, subl_word]
  obtain ⟨haddSf, haddZf⟩ := arithResult_masked_congr signedOverflow unsignedOverflow hsum
  obtain ⟨hsubSf, hsubZf⟩ := arithResult_masked_congr signedOverflow unsignedOverflow hdifference
  exact ⟨fun basis => ⟨adda_word basis a b, addl_word basis a b, suba_word basis a b, subl_word basis a b⟩,
    haddSf, haddZf, hsubSf, hsubZf⟩

/-- Settles O31: both forms store what the ALU function answers, whose OF tests the exact result. -/
theorem overflowIsSignedForArithmeticAndUnsignedForLogical :
    Obligations.OverflowIsSignedForArithmeticAndUnsignedForLogical := by
  intro f g p q adr s hf hg addA subA addL subL b hforms
  have hnext : ∃ shape,
      exec addA s = .next (s.storeResult shape p (adda s.params.zfBasis (s.reg p) b)) ∧
      exec subA s = .next (s.storeResult shape p (suba s.params.zfBasis (s.reg p) b)) ∧
      exec addL s = .next (s.storeResult shape p (addl s.params.zfBasis (s.reg p) b)) ∧
      exec subL s = .next (s.storeResult shape p (subl s.params.zfBasis (s.reg p) b)) := by
    rcases hforms with h | h <;> cases h
    · have hadr fn := aluAdr_of_names hf hg fn adr s
      exact ⟨.rax, hadr _, hadr _, hadr _, hadr _⟩
    · have hreg fn := aluReg_of_names hf hg fn s
      exact ⟨.rr, hreg _, hreg _, hreg _, hreg _⟩
  obtain ⟨shape, haddA, hsubA, haddL, hsubL⟩ := hnext
  refine ⟨⟨_, haddA, ?addA⟩, ⟨_, hsubA, ?subA⟩, ⟨_, haddL, ?addL⟩, ⟨_, hsubL, ?subL⟩⟩
  case addA | subA => exact State.storeResult_arithResult_of_iff.trans signedOverflow_iff
  case addL => exact State.storeResult_arithResult_of_iff.trans unsignedOverflow_add_iff
  case subL => exact State.storeResult_arithResult_of_iff.trans unsignedOverflow_sub_iff

/-- Settles O32: each function answers its word with the flags of a stored word and OF clear. -/
theorem loadsAndBitwiseOperationsSetTheFlagsOfTheStoredWord :
    Obligations.LoadsAndBitwiseOperationsSetTheFlagsOfTheStoredWord := by
  intro f g p q adr s hf hg
  have hadr fn := aluAdr_of_names hf hg fn adr s
  have hreg fn := aluReg_of_names hf hg fn s
  have hldAdr := (exec_ldAdr f adr g s).trans (hadr ldFn)
  have hldReg := (exec_ldReg f g s).trans (hreg ldFn)
  have hflags shape w := s.storeResult_storedFlags shape p w
  simp only [List.forall_mem_cons, List.not_mem_nil, false_imp_iff, implies_true, and_true]
  exact ⟨⟨_, hldAdr, hflags _ _⟩, ⟨_, hadr andFn, hflags _ _⟩, ⟨_, hadr orFn, hflags _ _⟩, ⟨_, hadr xorFn, hflags _ _⟩,
    ⟨_, hldReg, hflags _ _⟩, ⟨_, hreg andFn, hflags _ _⟩, ⟨_, hreg orFn, hflags _ _⟩, ⟨_, hreg xorFn, hflags _ _⟩⟩

end Sys2Proof.Proofs
end

section
/-! SUPPORT. R72, R79, R80: the rule of an instruction (RaxRule, RrRule) from the row that reads it and its effect. -/

namespace Sys2Proof.Machine

/-- R72, R80: what a row reads is encoded as its opcode byte, the nibbles that the row's shape keeps, and the operands. -/
theorem encodedAs_of_reads {p : Params} {op : Byte} {row : OpRow} {high low : RegField} {operands : List Word} {i : Instr}
    (hrow : opcodeRow p op = some row) (hreads : row.Reads high low operands i) :
    EncodedAs p i (word1 op (row.shape.keepHigh high) (row.shape.keepLow low) :: operands) := by
  refine ⟨(hreads.agrees hrow).encode, decode_eq_ok_iff.mpr ⟨_, operands, row, (List.append_nil _).symm, ?row, ?reads⟩⟩
  case row => rwa [opcodeByte_word1]
  case reads =>
    rw [highNibble_word1, lowNibble_word1]
    exact hreads.congr (by cases row <;> rfl) (by cases row <;> rfl)

/-- R79, R272: an instruction raises InvalidRegister when a field that the shape of its row uses names no register. -/
theorem exec_of_namesNone {p : Params} {op : Byte} {row : OpRow} {high low : RegField} {operands : List Word} {i : Instr}
    (hrow : opcodeRow p op = some row) (hreads : row.Reads high low operands i)
    (hfields : ∃ f ∈ row.shape.usedFields high low, NamesNone f) (s : State) :
    exec i s = .next (s.haltedBy (.invalidRegister s.pr)) := by
  obtain ⟨f, hf, hnone⟩ := hfields
  refine exec_of_not_wf ?_ s
  rw [Instr.wf, (hreads.agrees hrow).regFields, List.all_eq_false]
  exact ⟨f, hf, by simp [ok_eq_false_iff_namesNone.mpr hnone]⟩

/-- R72, R79: an instruction of shape RAX follows its rule when it has the effect wherever its fields name registers. -/
theorem RaxRule.of_names {op : Byte} {mk : RegField → Word → RegField → Instr}
    {effect : Reg → Word → Reg → State → State → Prop} (hrow : fixedRows.lookup op = some (.rax mk))
    (heffect : ∀ r adr x s p q, Names r p → Names x q → ∃ t, exec (mk r adr x) s = .next t ∧ effect p adr q s t) :
    RaxRule op mk effect := by
  intro r adr x s
  have hrow' := opcodeRow_fixed s.params hrow
  have hreads : OpRow.Reads r x (.rax mk) [adr] (mk r adr x) := .rax mk adr
  have hencoded := encodedAs_of_reads hrow' hreads
  exact ⟨hencoded, heffect r adr x s,
    fun hnone => exec_of_namesNone hrow' hreads (by simpa [OpRow.shape, Shape.usedFields] using hnone) s⟩

/-- R72, R79: an instruction of shape RR follows its rule when it has the effect wherever its fields name registers. -/
theorem RrRule.of_names {op : Byte} {mk : RegField → RegField → Instr} {effect : Reg → Reg → State → State → Prop}
    (hrow : fixedRows.lookup op = some (.rr mk))
    (heffect : ∀ r1 r2 s p q, Names r1 p → Names r2 q → ∃ t, exec (mk r1 r2) s = .next t ∧ effect p q s t) :
    RrRule op mk effect := by
  intro r1 r2 s
  have hrow' := opcodeRow_fixed s.params hrow
  have hreads : OpRow.Reads r1 r2 (.rr mk) [] (mk r1 r2) := .rr mk
  have hencoded := encodedAs_of_reads hrow' hreads
  exact ⟨hencoded, heffect r1 r2 s,
    fun hnone => exec_of_namesNone hrow' hreads (by simpa [OpRow.shape, Shape.usedFields] using hnone) s⟩

end Sys2Proof.Machine
end

section
/-! SUPPORT. R121 to R124: the next states of load, store and load address, and what they keep. -/

namespace Sys2Proof.Machine

/-- R101: SF is the most significant bit of the word. -/
theorem signBit_eq_msb (w : Word) : signBit w = w.msb := (BitVec.msb_eq_getLsbD_last w).symm

/-- R105, R121, R122: what a load does, once it has the word. -/
theorem State.storeResult_ldFn_writesReg (s : State) (shape : Shape) (p : Reg) (old w : Word) :
    WritesReg shape.length p w false w.msb (w == 0) s (s.storeResult shape p (ldFn old w)) :=
  signBit_eq_msb w ▸ s.storeResult_writesReg shape p w false (signBit w) (w == 0)

/-- R124: LAD stores the effective address, with the flags as they were. -/
theorem exec_lad_of_names {r x : RegField} {p q : Reg} (hr : Names r p) (hx : Names x q) (adr : Word) (s : State) :
    exec (.lad r adr x) s = .next (s.storeResult .rax p (s.ea adr q, .full s.of s.sf s.zf)) :=
  withRegs_of_names hr hx s _

/-- R87, R123: the word is stored and the step falls through, past an instruction of two words. -/
def State.storeWord (s : State) (a v : Word) : State := (s.writeMem a v).arrive (s.pr + 2)

/-- R123: ST stores the register's word at the effective address. -/
theorem exec_st_of_names {r x : RegField} {p q : Reg} (hr : Names r p) (hx : Names x q) (adr : Word) (s : State) :
    exec (.st r adr x) s = .next (s.storeWord (s.ea adr q) (s.reg p)) :=
  withRegs_of_names hr hx s _

/-- R87, R123: what storing a word does, and that the rest stays. -/
theorem State.storeWord_effect (s : State) (a v : Word) :
    (s.storeWord a v).readMem a = v ∧ SameMem [a] s (s.storeWord a v) ∧ SameRegs [] s (s.storeWord a v) ∧
      SameFlags s (s.storeWord a v) ∧ SameRest s (s.storeWord a v) ∧ FellThrough 2 s (s.storeWord a v) := by
  refine ⟨?word, fun b hb => ?others, fun _ _ => rfl, ⟨rfl, rfl, rfl⟩, ⟨rfl, rfl, rfl, rfl, rfl, rfl⟩, rfl, rfl, rfl⟩
  case word => simp [storeWord]
  case others => simp [storeWord, Ne.symm (List.mem_singleton.not.mp hb)]

end Sys2Proof.Machine
end

section
/-! PROOF. The statements on load, store and load address (41_load_store.md, R121 to R124). -/

namespace Sys2Proof.Proofs
open Sys2Proof Sys2Proof.Machine

/-- Settles O34: each form is the load function on its second operand. -/
theorem ldLoadsTheWordAndSetsTheFlags : Obligations.LdLoadsTheWordAndSetsTheFlags :=
  ⟨.of_names rfl fun r adr x s p _ hr hx =>
      ⟨_, (exec_ldAdr r adr x s).trans (aluAdr_of_names hr hx ldFn adr s), s.storeResult_ldFn_writesReg .rax p _ _⟩,
    .of_names rfl fun r1 r2 s p _ h1 h2 =>
      ⟨_, (exec_ldReg r1 r2 s).trans (aluReg_of_names h1 h2 ldFn s), s.storeResult_ldFn_writesReg .rr p _ _⟩⟩

/-- Settles O35: ST writes the one word of memory and falls through. -/
theorem stStoresTheRegister : Obligations.StStoresTheRegister :=
  .of_names rfl fun _ adr _ s _ _ hr hx => ⟨_, exec_st_of_names hr hx adr s, s.storeWord_effect _ _⟩

/-- Settles O36: LAD stores the address as a result whose flags are the old ones. -/
theorem ladLoadsTheAddress : Obligations.LadLoadsTheAddress :=
  .of_names rfl fun _ adr _ s p _ hr hx =>
    ⟨_, exec_lad_of_names hr hx adr s, s.storeResult_writesReg .rax p _ _ _ _⟩

end Sys2Proof.Proofs
end

section
/-! SUPPORT. R140: the rules of the two forms of an ALU function and of a compare, from what each function answers. -/

namespace Sys2Proof.Machine

section Forms
variable {opAdr opReg : Byte} {mkAdr : RegField → Word → RegField → Instr} {mkReg : RegField → RegField → Instr}
  {effect : Nat → Reg → Word → Word → State → State → Prop}

/-- R140: both forms of an instruction follow their rules when the state they answer, the same function of the two operands in
each, has the effect. -/
theorem rules_of_forms (after : Shape → Reg → Word → Word → State → State)
    (hrowAdr : fixedRows.lookup opAdr = some (.rax mkAdr)) (hrowReg : fixedRows.lookup opReg = some (.rr mkReg))
    (hexecAdr : ∀ r adr x s p q, Names r p → Names x q →
      exec (mkAdr r adr x) s = .next (after .rax p (s.reg p) (s.readMem (s.ea adr q)) s))
    (hexecReg : ∀ r1 r2 s p q, Names r1 p → Names r2 q →
      exec (mkReg r1 r2) s = .next (after .rr p (s.reg p) (s.reg q) s))
    (heffect : ∀ shape p a b s, effect shape.length p a b s (after shape p a b s)) :
    RaxRule opAdr mkAdr (fun p adr q s t => effect 2 p (s.reg p) (s.readMem (s.ea adr q)) s t) ∧
    RrRule opReg mkReg (fun p q s t => effect 1 p (s.reg p) (s.reg q) s t) :=
  ⟨.of_names hrowAdr fun r adr x s p q hr hx => ⟨_, hexecAdr r adr x s p q hr hx, heffect .rax p _ _ s⟩,
    .of_names hrowReg fun r1 r2 s p q h1 h2 => ⟨_, hexecReg r1 r2 s p q h1 h2, heffect .rr p _ _ s⟩⟩

/-- R140: the rules of an ALU function. -/
theorem aluRules (fn : ZfBasis → Word → Word → Word × FlagTriple)
    (hrowAdr : fixedRows.lookup opAdr = some (.rax mkAdr)) (hrowReg : fixedRows.lookup opReg = some (.rr mkReg))
    (hexecAdr : ∀ r adr x s, exec (mkAdr r adr x) s = aluAdr (fn s.params.zfBasis) r adr x s)
    (hexecReg : ∀ r1 r2 s, exec (mkReg r1 r2) s = aluReg (fn s.params.zfBasis) r1 r2 s)
    (heffect : ∀ shape p a b s, effect shape.length p a b s (s.storeResult shape p (fn s.params.zfBasis a b))) :
    RaxRule opAdr mkAdr (fun p adr q s t => effect 2 p (s.reg p) (s.readMem (s.ea adr q)) s t) ∧
    RrRule opReg mkReg (fun p q s t => effect 1 p (s.reg p) (s.reg q) s t) :=
  rules_of_forms (fun shape p a b s => s.storeResult shape p (fn s.params.zfBasis a b)) hrowAdr hrowReg
    (fun r adr x s _ _ hr hx => (hexecAdr r adr x s).trans (aluAdr_of_names hr hx _ adr s))
    (fun r1 r2 s _ _ h1 h2 => (hexecReg r1 r2 s).trans (aluReg_of_names h1 h2 _ s)) heffect

/-- R87, R140: the flags are what the triple says, and the step falls through. -/
def State.storeFlags (s : State) (shape : Shape) (flags : FlagTriple) : State :=
  (s.applyFlags (some flags)).arrive (s.pr + BitVec.ofNat 16 shape.length)

/-- R140: the rules of a compare. -/
theorem compareRules (fn : Word → Word → FlagTriple)
    (hrowAdr : fixedRows.lookup opAdr = some (.rax mkAdr)) (hrowReg : fixedRows.lookup opReg = some (.rr mkReg))
    (hexecAdr : ∀ r adr x s, exec (mkAdr r adr x) s = compareAdr fn r adr x s)
    (hexecReg : ∀ r1 r2 s, exec (mkReg r1 r2) s = compareReg fn r1 r2 s)
    (heffect : ∀ shape p a b s, effect shape.length p a b s (s.storeFlags shape (fn a b))) :
    RaxRule opAdr mkAdr (fun p adr q s t => effect 2 p (s.reg p) (s.readMem (s.ea adr q)) s t) ∧
    RrRule opReg mkReg (fun p q s t => effect 1 p (s.reg p) (s.reg q) s t) :=
  rules_of_forms (fun shape _ a b s => s.storeFlags shape (fn a b)) hrowAdr hrowReg
    (fun r adr x s _ _ hr hx => (hexecAdr r adr x s).trans (withRegs_of_names hr hx s _))
    (fun r1 r2 s _ _ h1 h2 => (hexecReg r1 r2 s).trans (withRegs_of_names h1 h2 s _)) heffect

end Forms

/-- R102: what the zero flag of an add or subtract says. -/
theorem zeroFlag_eq_decide (basis : ZfBasis) (t : Int) (w : Word) :
    zeroFlag basis t w = decide (basis = .masked ∧ w = 0 ∨ basis = .unmasked ∧ t = 0) := by
  cases basis <;> simp [zeroFlag, Bool.beq_eq_decide_eq]

/-- R101 to R104: what storing an add or subtract does, from its word, its overflow and when its exact result is 0. -/
theorem State.storeResult_arithResult_writesReg (s : State) (shape : Shape) (p : Reg) {overflow : Int → Bool} {t : Int}
    {w : Word} {outside zero : Prop} [Decidable outside] [Decidable zero]
    (hw : u16 t = w) (hoverflow : overflow t = true ↔ outside) (hzero : t = 0 ↔ zero) :
    WritesReg shape.length p w (decide outside) w.msb
      (decide (s.params.zfBasis = .masked ∧ w = 0 ∨ s.params.zfBasis = .unmasked ∧ zero)) s
      (s.storeResult shape p (arithResult s.params.zfBasis overflow t)) := by
  subst hw
  have hof : decide outside = overflow t :=
    Bool.eq_iff_iff.mpr (decide_eq_true_iff.trans hoverflow.symm)
  simp only [hof, ← signBit_eq_msb, ← hzero, ← zeroFlag_eq_decide]
  exact s.storeResult_writesReg shape p (u16 t) _ _ _

/-- R105: what storing a word with its flags does; the word is read back from the register. -/
theorem State.storeResult_storedFlags_writesReg (s : State) (shape : Shape) (p : Reg) (w : Word) :
    let t := s.storeResult shape p (w, storedFlags false w)
    t.reg p = w ∧ WritesReg shape.length p (t.reg p) false (t.reg p).msb (t.reg p == 0) s t := by
  intro t
  have hwrites : WritesReg shape.length p w false w.msb (w == 0) s t := s.storeResult_ldFn_writesReg shape p w w
  have hreg : t.reg p = w := hwrites.1
  exact ⟨hreg, hreg.symm ▸ hwrites⟩

/-- R87, R89, R140: what setting the flags by a full triple does, and that the rest stays. -/
theorem State.storeFlags_writesFlags (s : State) (shape : Shape) (o n z : Bool) :
    WritesFlags shape.length o n z s (s.storeFlags shape (.full o n z)) :=
  ⟨rfl, rfl, rfl, fun _ _ => rfl, fun _ _ => rfl, ⟨rfl, rfl, rfl, rfl, rfl, rfl⟩, rfl, rfl, rfl⟩

/-- R106: the sign of an exact difference is the order of the operands, and it is 0 when they are equal. -/
theorem compareFlags_sub {i j : Int} {less equal : Prop} [Decidable less] [Decidable equal]
    (hless : i < j ↔ less) (hequal : i = j ↔ equal) :
    compareFlags (i - j) = .full false (decide less) (decide equal) := by
  have hsf : decide (i - j < 0) = decide less := decide_eq_decide.mpr (sub_neg.trans hless)
  have hzf : (i - j == 0) = decide equal := decide_eq_decide.mpr (sub_eq_zero.trans hequal)
  rw [compareFlags, hsf, hzf]

/-- R106: CPA compares the signed views. -/
theorem cpaFlags_eq (a b : Word) : cpaFlags a b = .full false (decide (a.toInt < b.toInt)) (decide (a = b)) :=
  compareFlags_sub Iff.rfl BitVec.toInt_inj

/-- R106: CPL compares the unsigned views. -/
theorem cplFlags_eq (a b : Word) : cplFlags a b = .full false (decide (a.toNat < b.toNat)) (decide (a = b)) :=
  compareFlags_sub Int.ofNat_lt (Int.ofNat_inj.trans BitVec.toNat_inj)

end Sys2Proof.Machine
end

section
/-! PROOF. The statements on arithmetic, logic and compare (42_arith_logic.md, R141 to R158). -/

namespace Sys2Proof.Proofs
open Sys2Proof Sys2Proof.Machine

/-- Settles O37: the exact result is the sum of the signed views. -/
theorem addaAddsSigned : Obligations.AddaAddsSigned := by
  unfold Obligations.AddaAddsSigned
  intro effect
  exact aluRules (effect := effect) adda rfl rfl (fun _ _ _ _ => rfl) (fun _ _ _ => rfl) fun shape p _ _ s =>
    s.storeResult_arithResult_writesReg shape p rfl signedOverflow_iff Iff.rfl

/-- Settles O38: the exact result is the difference of the signed views. -/
theorem subaSubtractsSigned : Obligations.SubaSubtractsSigned := by
  unfold Obligations.SubaSubtractsSigned
  intro effect
  exact aluRules (effect := effect) suba rfl rfl (fun _ _ _ _ => rfl) (fun _ _ _ => rfl) fun shape p _ _ s =>
    s.storeResult_arithResult_writesReg shape p rfl signedOverflow_iff Iff.rfl

/-- Settles O39: the exact result is the sum of the unsigned views, which overflows by a carry alone. -/
theorem addlAddsUnsigned : Obligations.AddlAddsUnsigned := by
  unfold Obligations.AddlAddsUnsigned
  intro effect
  exact aluRules (effect := effect) addl rfl rfl (fun _ _ _ _ => rfl) (fun _ _ _ => rfl) fun shape p a b s =>
    s.storeResult_arithResult_writesReg shape p (BitVec.ofInt_natCast 16 (a.toNat + b.toNat)) unsignedOverflow_add_iff
      Int.natCast_eq_zero

/-- Settles O40: the exact result is the difference of the unsigned views, which overflows by a borrow alone. -/
theorem sublSubtractsUnsigned : Obligations.SublSubtractsUnsigned := by
  unfold Obligations.SublSubtractsUnsigned
  intro effect
  exact aluRules (effect := effect) subl rfl rfl (fun _ _ _ _ => rfl) (fun _ _ _ => rfl) fun shape p _ _ s =>
    s.storeResult_arithResult_writesReg shape p rfl unsignedOverflow_sub_iff Iff.rfl

/-- Settles O41: each function stores the word of the bitwise operation, with that word's flags. -/
theorem bitwiseOperationsActBitByBit : Obligations.BitwiseOperationsActBitByBit := by
  unfold Obligations.BitwiseOperationsActBitByBit
  intro effect
  have heffect (op : Bool → Bool → Bool) (word : Word → Word → Word)
      (hbits : ∀ (a b : Word) (k : Nat), (word a b).getLsbD k = op (a.getLsbD k) (b.getLsbD k))
      (shape : Shape) (p : Reg) (a b : Word) (s : State) :
      effect op shape.length p a b s (s.storeResult shape p (word a b, storedFlags false (word a b))) := by
    obtain ⟨hreg, hwrites⟩ := s.storeResult_storedFlags_writesReg shape p (word a b)
    exact ⟨fun k _ => (congrArg (·.getLsbD k) hreg).trans (hbits a b k), hwrites⟩
  refine and_assoc.mp ⟨?and, and_assoc.mp ⟨?or, ?xor⟩⟩
  case and =>
    exact aluRules (effect := effect (· && ·)) (fun _ => andFn) rfl rfl (fun _ _ _ _ => rfl) (fun _ _ _ => rfl)
      (heffect _ (· &&& ·) fun _ _ _ => BitVec.getLsbD_and)
  case or =>
    exact aluRules (effect := effect (· || ·)) (fun _ => orFn) rfl rfl (fun _ _ _ _ => rfl) (fun _ _ _ => rfl)
      (heffect _ (· ||| ·) fun _ _ _ => BitVec.getLsbD_or)
  case xor =>
    exact aluRules (effect := effect Bool.xor) (fun _ => xorFn) rfl rfl (fun _ _ _ _ => rfl) (fun _ _ _ => rfl)
      (heffect _ (· ^^^ ·) fun _ _ _ => BitVec.getLsbD_xor)

/-- Settles O42: the flags are those of the signed order. -/
theorem cpaComparesSigned : Obligations.CpaComparesSigned := by
  unfold Obligations.CpaComparesSigned
  intro effect
  refine compareRules (effect := fun n _ => effect n) cpaFlags rfl rfl (fun _ _ _ _ => rfl) (fun _ _ _ => rfl)
    fun shape _ a b s => ?_
  rw [cpaFlags_eq]
  exact s.storeFlags_writesFlags shape _ _ _

/-- Settles O43: the flags are those of the unsigned order. -/
theorem cplComparesUnsigned : Obligations.CplComparesUnsigned := by
  unfold Obligations.CplComparesUnsigned
  intro effect
  refine compareRules (effect := fun n _ => effect n) cplFlags rfl rfl (fun _ _ _ _ => rfl) (fun _ _ _ => rfl)
    fun shape _ a b s => ?_
  rw [cplFlags_eq]
  exact s.storeFlags_writesFlags shape _ _ _

end Sys2Proof.Proofs
end

section
/-! SUPPORT. R180: the shift functions as bit-vector shifts, and the next state of a shift. -/

namespace Sys2Proof.Machine

/-! The word of each function. -/

/-- R180: SLA keeps bit 15 and multiplies the field below it by 2^n modulo 2^15, for every amount. -/
theorem slaWord_toNat (v : Word) (n : Nat) :
    (slaWord v n).toNat = v.toNat / 2 ^ 15 * 2 ^ 15 + v.toNat * 2 ^ n % 2 ^ 15 := by
  have hlt : v.toNat < 2 ^ 16 := v.isLt
  by_cases hn : n = 0
  case pos =>
    rw [slaWord, if_pos hn, hn]
    omega
  case neg =>
    have hfield : v.toNat * 2 ^ n % 2 ^ 15 < 2 ^ 15 := Nat.mod_lt _ (by decide)
    have hsign : v.toNat &&& 2 ^ 15 = 2 ^ 15 * (v.toNat / 2 ^ 15) := by
      rw [Nat.and_two_pow, Nat.toNat_testBit]
      omega
    calc (slaWord v n).toNat
        = v.toNat &&& 2 ^ 15 ||| v.toNat * 2 ^ n % 2 ^ 15 % 2 ^ 16 := by rw [slaWord, if_neg hn]; rfl
      _ = 2 ^ 15 * (v.toNat / 2 ^ 15) ||| v.toNat * 2 ^ n % 2 ^ 15 := by
          rw [hsign, Nat.mod_eq_of_lt (hfield.trans (by decide))]
      _ = v.toNat / 2 ^ 15 * 2 ^ 15 + v.toNat * 2 ^ n % 2 ^ 15 := by
          rw [← Nat.two_pow_add_eq_or_of_lt hfield, Nat.mul_comm]

/-- R180: SRA is the arithmetic shift right. -/
theorem sraWord_eq_sshiftRight (v : Word) (n : Nat) : sraWord v n = v.sshiftRight n := by
  rw [sraWord_eq, BitVec.sshiftRight, Int.shiftRight_eq_div_pow, Nat.cast_pow, Nat.cast_ofNat]
  rfl

/-- R180: SLL is the shift left. -/
theorem sllWord_eq_shiftLeft (v : Word) (n : Nat) : sllWord v n = v <<< n := by
  rw [sllWord_eq, ← Nat.shiftLeft_eq]
  rfl

/-- R180: SRL is the logical shift right. -/
theorem srlWord_eq_ushiftRight (v : Word) (n : Nat) : srlWord v n = v >>> n := by
  rw [srlWord_eq, ← Nat.shiftRight_eq_div_pow, ← BitVec.toNat_ushiftRight, BitVec.ofNat_toNat, BitVec.setWidth_eq]

/-- R180: SRA divides the signed view, rounding down. -/
theorem sraWord_toInt (v : Word) (n : Nat) : (sraWord v n).toInt = v.toInt / 2 ^ n := by
  rw [sraWord_eq_sshiftRight, BitVec.toInt_sshiftRight, Int.shiftRight_eq_div_pow, Nat.cast_pow, Nat.cast_ofNat]

/-- R180: SLL multiplies the unsigned view. -/
theorem sllWord_toNat (v : Word) (n : Nat) : (sllWord v n).toNat = v.toNat * 2 ^ n % 2 ^ 16 := by
  rw [sllWord_eq_shiftLeft, BitVec.toNat_shiftLeft, Nat.shiftLeft_eq]

/-- R180: SRL divides the unsigned view. -/
theorem srlWord_toNat (v : Word) (n : Nat) : (srlWord v n).toNat = v.toNat / 2 ^ n := by
  rw [srlWord_eq_ushiftRight, BitVec.toNat_ushiftRight, Nat.shiftRight_eq_div_pow]

/-! The bits of each word. -/

/-- R180: SLA keeps bit 15 and moves the bits below it. -/
theorem slaWord_getLsbD (v : Word) {n k : Nat} (hk : k < 16) :
    (slaWord v n).getLsbD k = if k = 15 then v.getLsbD 15 else decide (n ≤ k) && v.getLsbD (k - n) := by
  have hfield : v.toNat * 2 ^ n % 2 ^ 15 < 2 ^ 15 := Nat.mod_lt _ (by decide)
  rw [← BitVec.testBit_toNat, slaWord_toNat, Nat.mul_comm (_ / _), Nat.testBit_two_pow_mul_add _ hfield]
  by_cases hk15 : k = 15
  case pos =>
    subst hk15
    rw [if_neg (lt_irrefl 15), if_pos rfl, Nat.sub_self, Nat.testBit_div_two_pow, BitVec.testBit_toNat]
  case neg =>
    have hklt : k < 15 := by omega
    rw [if_pos hklt, if_neg hk15, Nat.testBit_mod_two_pow, Nat.testBit_mul_two_pow, BitVec.testBit_toNat,
      decide_eq_true hklt, Bool.true_and]

/-- R180: SRA moves every bit and fills with bit 15. -/
theorem sraWord_getLsbD (v : Word) {n k : Nat} (hk : k < 16) :
    (sraWord v n).getLsbD k = v.getLsbD (min (k + n) 15) := by
  rw [sraWord_eq_sshiftRight, BitVec.getLsbD_sshiftRight, Nat.add_comm n k]
  by_cases hin : k + n < 16
  case pos =>
    have hmin : min (k + n) 15 = k + n := by omega
    simp [hk, hin, hmin]
  case neg =>
    have hmin : min (k + n) 15 = 15 := by omega
    simp [hk, hin, hmin, BitVec.msb_eq_getLsbD_last]

/-- R180: SLL moves every bit and fills with 0. -/
theorem sllWord_getLsbD (v : Word) {n k : Nat} (hk : k < 16) :
    (sllWord v n).getLsbD k = (decide (n ≤ k) && v.getLsbD (k - n)) := by
  rw [sllWord_eq_shiftLeft, BitVec.getLsbD_shiftLeft, decide_eq_true hk, Bool.true_and, ← decide_not]
  simp only [Nat.not_lt]

/-- R180: SRL moves every bit and fills with 0. -/
theorem srlWord_getLsbD (v : Word) (n k : Nat) : (srlWord v n).getLsbD k = v.getLsbD (k + n) := by
  rw [srlWord_eq_ushiftRight, BitVec.getLsbD_ushiftRight, Nat.add_comm]

/-! What each function answers. -/

/-- R180: OF of the shifts but SRA is a bit of the old value for the amounts 1 to `m`, and 0 for the others. -/
theorem ite_amount_eq_decide_and (n m : Nat) (b : Bool) :
    (if n = 0 then false else if n ≤ m then b else false) = (decide (1 ≤ n ∧ n ≤ m) && b) := by
  by_cases hn : n = 0
  case pos => simp [hn]
  case neg =>
    have hpos : 1 ≤ n := Nat.one_le_iff_ne_zero.mpr hn
    simp [hn, hpos]

theorem slaFn_eq (v : Word) (n : Nat) :
    slaFn v n = (slaWord v n, .full (decide (1 ≤ n ∧ n ≤ 15) && v.getLsbD (15 - n)) v.msb (slaWord v n == 0)) := by
  have hsign : signBit (slaWord v n) = v.msb := (slaWord_getLsbD v (by decide)).trans (signBit_eq_msb v)
  rw [slaFn, storedFlags, slaOf, ite_amount_eq_decide_and, hsign]

theorem sraFn_eq (v : Word) (n : Nat) :
    sraFn v n = (sraWord v n, .full (if n = 0 then false else if n ≤ 16 then v.getLsbD (n - 1) else v.msb) v.msb
      (sraWord v n == 0)) := by
  have hsign : signBit (sraWord v n) = v.msb := by
    rw [signBit_eq_msb, sraWord_eq_sshiftRight, BitVec.msb_sshiftRight]
  rw [sraFn, storedFlags, hsign, ← signBit_eq_msb v]
  rfl

theorem sllFn_eq (v : Word) (n : Nat) :
    sllFn v n = (sllWord v n, .full (decide (1 ≤ n ∧ n ≤ 16) && v.getLsbD (16 - n)) (sllWord v n).msb
      (sllWord v n == 0)) := by
  rw [sllFn, storedFlags, sllOf, ite_amount_eq_decide_and, signBit_eq_msb]

theorem srlFn_eq (v : Word) (n : Nat) :
    srlFn v n = (srlWord v n, .full (decide (1 ≤ n ∧ n ≤ 16) && v.getLsbD (n - 1)) (srlWord v n).msb
      (srlWord v n == 0)) := by
  rw [srlFn, storedFlags, srlOf, ite_amount_eq_decide_and, signBit_eq_msb]

/-- R180: a shift follows its rule when a state that differs by the word and the flags its function answers, and has fallen through,
has the effect. -/
theorem RaxRule.of_shift {op : Byte} {mk : RegField → Word → RegField → Instr} {fn : Word → Nat → Word × FlagTriple}
    {word : Word → Nat → Word} {of sf : Word → Nat → Bool} {effect : Reg → Word → Reg → State → State → Prop}
    (hrow : fixedRows.lookup op = some (.rax mk)) (hexec : ∀ r adr x s, exec (mk r adr x) s = shiftBy fn r adr x s)
    (hfn : ∀ v n, fn v n = (word v n, .full (of v n) (sf v n) (word v n == 0)))
    (heffect : ∀ p adr q s t, let v := s.reg p; let n := (s.ea adr q).toNat
      t.reg p = word v n → WritesReg 2 p (word v n) (of v n) (sf v n) (word v n == 0) s t → effect p adr q s t) :
    RaxRule op mk effect := by
  refine .of_names hrow fun r adr x s p q hr hx => ?_
  have hnext : exec (mk r adr x) s = .next (s.storeResult .rax p (fn (s.reg p) (s.ea adr q).toNat)) :=
    (hexec r adr x s).trans (withRegs_of_names hr hx s _)
  have hwrites (v : Word) (n : Nat) := s.storeResult_writesReg .rax p (word v n) (of v n) (sf v n) (word v n == 0)
  obtain ⟨hreg, -⟩ := hwrites (s.reg p) (s.ea adr q).toNat
  exact ⟨_, hfn _ _ ▸ hnext, heffect p adr q s _ hreg (hwrites _ _)⟩

end Sys2Proof.Machine
end

section
/-! PROOF. The statements on the shifts (43_shift.md, R180 to R184). -/

namespace Sys2Proof.Proofs
open Sys2Proof Sys2Proof.Machine

/-- Settles O33: the bits of the four words. -/
theorem shiftsMoveBits : Obligations.ShiftsMoveBits :=
  fun v n k hk => ⟨slaWord_getLsbD v hk, sraWord_getLsbD v hk, sllWord_getLsbD v hk, srlWord_getLsbD v n k⟩

/-- Settles O44: the word is the kept bit 15 beside the multiplied field. -/
theorem slaShiftsTheFieldLeft : Obligations.SlaShiftsTheFieldLeft :=
  .of_shift rfl (fun _ _ _ _ => rfl) slaFn_eq fun _ _ _ _ _ hreg hwrites => hreg.symm ▸ ⟨slaWord_toNat _ _, hwrites⟩

/-- Settles O45: the word is the arithmetic shift right, which rounds the quotient down. -/
theorem sraShiftsTheSignedValueRight : Obligations.SraShiftsTheSignedValueRight :=
  .of_shift rfl (fun _ _ _ _ => rfl) sraFn_eq fun _ _ _ _ _ hreg hwrites => hreg.symm ▸ ⟨sraWord_toInt _ _, hwrites⟩

/-- Settles O46: the word is the shift left. -/
theorem sllShiftsTheWordLeft : Obligations.SllShiftsTheWordLeft :=
  .of_shift rfl (fun _ _ _ _ => rfl) sllFn_eq fun _ _ _ _ _ hreg hwrites => hreg.symm ▸ ⟨sllWord_toNat _ _, hwrites⟩

/-- Settles O47: the word is the logical shift right. -/
theorem srlShiftsTheWordRight : Obligations.SrlShiftsTheWordRight :=
  .of_shift rfl (fun _ _ _ _ => rfl) srlFn_eq fun _ _ _ _ _ hreg hwrites => hreg.symm ▸ ⟨srlWord_toNat _ _, hwrites⟩

end Sys2Proof.Proofs
end

section
/-! SUPPORT. R200: the rule of an instruction of shape AX (AxRule) from its row and its effect, and the next state of a branch. -/

namespace Sys2Proof.Machine

/-- R72, R79: an instruction of shape AX follows its rule when it has the effect wherever its field names a register. -/
theorem AxRule.of_names {op : Byte} {mk : Word → RegField → Instr} {effect : Word → Reg → State → State → Prop}
    (hrow : fixedRows.lookup op = some (.ax mk))
    (heffect : ∀ adr x s q, Names x q → ∃ t, exec (mk adr x) s = .next t ∧ effect adr q s t) :
    AxRule op mk effect := by
  intro adr x s
  have hrow' := opcodeRow_fixed s.params hrow
  have hreads : OpRow.Reads 0 x (.ax mk) [adr] (mk adr x) := .ax mk adr
  have hencoded := encodedAs_of_reads hrow' hreads
  exact ⟨hencoded, heffect adr x s,
    fun hnone => exec_of_namesNone hrow' hreads (by simpa [OpRow.shape, Shape.usedFields] using hnone) s⟩

/-- R200: a branch arrives at EA or falls through. -/
theorem branchIf_of_names {x : RegField} {q : Reg} (hx : Names x q) (condition : Bool) (adr : Word) (s : State) :
    branchIf condition adr x s = .next (s.arrive (if condition then s.ea adr q else s.pr + 2)) := by
  rw [branchIf, withReg_of_names hx]
  cases condition with
  | true => exact complete_jump s .ax _ none
  | false => exact complete_continue s .ax none

/-- R87: arriving at an address moves PR, the step counter and the status alone. -/
theorem State.arrive_frame (s : State) (target : Word) :
    SameRegs [] s (s.arrive target) ∧ SameFlags s (s.arrive target) ∧ SameMem [] s (s.arrive target) ∧
      SameRest s (s.arrive target) :=
  ⟨fun _ _ => rfl, ⟨rfl, rfl, rfl⟩, fun _ _ => rfl, ⟨rfl, rfl, rfl, rfl, rfl, rfl⟩⟩

/-- R87: arriving at an address is a step that completed there. -/
theorem State.arrived_arrive (s : State) (target : Word) : Arrived target s (s.arrive target) := ⟨rfl, rfl, rfl⟩

/-- R200: an instruction that branches on a bit follows the rule of a branch on the condition that the bit decides. -/
theorem AxRule.of_branchIf {op : Byte} {mk : Word → RegField → Instr} {bit : State → Bool} {condition : State → Prop}
    (hrow : fixedRows.lookup op = some (.ax mk))
    (hexec : ∀ adr x s, exec (mk adr x) s = branchIf (bit s) adr x s) (hbit : ∀ s, bit s = true ↔ condition s) :
    AxRule op mk fun adr q s t =>
      (condition s → Arrived (s.ea adr q) s t) ∧ (¬ condition s → FellThrough 2 s t) ∧
      SameRegs [] s t ∧ SameFlags s t ∧ SameMem [] s t ∧ SameRest s t := by
  refine .of_names hrow fun adr x s q hx =>
    ⟨_, (hexec adr x s).trans (branchIf_of_names hx _ adr s), fun h => ?taken, fun h => ?notTaken, s.arrive_frame _⟩
  case taken =>
    rw [if_pos ((hbit s).mpr h)]
    exact s.arrived_arrive _
  case notTaken =>
    rw [if_neg (mt (hbit s).mp h)]
    exact s.arrived_arrive _

end Sys2Proof.Machine
end

section
/-! PROOF. The statement on the branches (44_branch.md, R200 to R206). -/

namespace Sys2Proof.Proofs
open Sys2Proof Sys2Proof.Machine

/-- Settles O48: each branch tests the bit that decides its condition. -/
theorem branchesJumpOnTheirConditions : Obligations.BranchesJumpOnTheirConditions := by
  unfold Obligations.BranchesJumpOnTheirConditions
  intro effect
  refine ⟨?jmi, ?jnz, ?jze, ?jump, ?jpl, ?jov⟩
  case jmi => exact .of_branchIf (bit := State.sf) rfl (fun _ _ _ => rfl) fun _ => Iff.rfl
  case jnz => exact .of_branchIf (bit := fun s => !s.zf) rfl (fun _ _ _ => rfl) fun s => by simp
  case jze => exact .of_branchIf (bit := State.zf) rfl (fun _ _ _ => rfl) fun _ => Iff.rfl
  case jump => exact .of_branchIf (bit := fun _ => true) rfl (fun _ _ _ => rfl) fun _ => by simp
  case jpl => exact .of_branchIf (bit := fun s => !s.sf && !s.zf) rfl (fun _ _ _ => rfl) fun s => by simp
  case jov => exact .of_branchIf (bit := State.of) rfl (fun _ _ _ => rfl) fun _ => Iff.rfl

end Sys2Proof.Proofs
end

section
/-! SUPPORT. R72, R87: the words of an instruction of shape N, and what stays at the end of a step. -/

namespace Sys2Proof.Machine

/-- R72: two ignored nibbles are the ignored low byte. -/
theorem word1_zero_zero (op : Byte) : word1 op 0 0 = op ++ (0 : Byte) := by
  rw [word1, BitVec.append_assoc, BitVec.cast_eq]
  rfl

/-- R72, R80: an instruction of shape N is encoded as its opcode byte above a byte of ignored bits, written 0. -/
theorem encodedAs_of_row_n {p : Params} {op : Byte} {i : Instr} (hrow : opcodeRow p op = some (.n i)) :
    EncodedAs p i [op ++ (0 : Byte)] := by
  have hreads : OpRow.Reads 0 0 (.n i) [] i := .n i
  have hencoded := encodedAs_of_reads hrow hreads
  exact word1_zero_zero op ▸ hencoded

/-- R87, R223: a step that changes the registers, the memory and the call level, and arrives at an address, keeps the rest. -/
theorem State.arrive_keepsRest {s s' : State} (h : s' = { s with gr := s'.gr, mem := s'.mem, level := s'.level })
    (target : Word) :
    SameFlags s (s'.arrive target) ∧ SameHost s (s'.arrive target) ∧ Arrived target s (s'.arrive target) := by
  rw [h]
  exact ⟨⟨rfl, rfl, rfl⟩, ⟨rfl, rfl, rfl, rfl, rfl⟩, rfl, rfl, rfl⟩

/-- R87, R90: a step that changes the registers and the memory, and falls through, keeps the rest. -/
theorem State.fallThrough_keepsRest {s s' : State} (h : s' = { s with gr := s'.gr, mem := s'.mem }) (n : Nat) :
    SameFlags s (s'.arrive (s'.pr + BitVec.ofNat 16 n)) ∧ SameRest s (s'.arrive (s'.pr + BitVec.ofNat 16 n)) ∧
      FellThrough n s (s'.arrive (s'.pr + BitVec.ofNat 16 n)) := by
  rw [h]
  exact ⟨⟨rfl, rfl, rfl⟩, ⟨rfl, rfl, rfl, rfl, rfl, rfl⟩, rfl, rfl, rfl⟩

theorem SameFlags.trans {s t u : State} (hst : SameFlags s t) (htu : SameFlags t u) : SameFlags s u := by
  obtain ⟨hof, hsf, hzf⟩ := hst
  obtain ⟨hof', hsf', hzf'⟩ := htu
  exact ⟨hof'.trans hof, hsf'.trans hsf, hzf'.trans hzf⟩

theorem SameRest.trans {s t u : State} (hst : SameRest s t) (htu : SameRest t u) : SameRest s u := by
  obtain ⟨hlevel, hparams, hbreakpoints, hin, hreads, hout⟩ := hst
  obtain ⟨hlevel', hparams', hbreakpoints', hin', hreads', hout'⟩ := htu
  exact ⟨hlevel'.trans hlevel, hparams'.trans hparams, hbreakpoints'.trans hbreakpoints, hin'.trans hin,
    hreads'.trans hreads, hout'.trans hout⟩

end Sys2Proof.Machine
end

section
/-! SUPPORT. R220 to R225: what pushes and pops leave in the registers and in memory. -/

namespace Sys2Proof.Machine

variable (s : State)

/-- R220, R222: a push stores the word below the stack and moves SP there, and writes no other register or memory word. -/
theorem State.pushWord_effect (v : Word) :
    (s.pushWord v).sp = s.sp - 1 ∧ (s.pushWord v).readMem (s.sp - 1) = v ∧ SameMem [s.sp - 1] s (s.pushWord v) ∧
      SameRegs [.gr8] s (s.pushWord v) := by
  refine ⟨by simp [State.sp], by simp, fun a ha => ?others, fun q hq => ?regs⟩
  case others => rw [pushWord_readMem, if_neg (Ne.symm (List.mem_singleton.not.mp ha))]
  case regs => rw [pushWord_reg, if_neg (List.mem_singleton.not.mp hq)]

/-! A run of pushes. -/

/-- Successive addresses going down, counted from the first or from the second. -/
theorem sub_ofNat_succ (a : Word) (j : Nat) : a - BitVec.ofNat 16 (j + 1) = a - 1 - BitVec.ofNat 16 j := by
  rw [BitVec.ofNat_add, add_comm, ← sub_sub]
  rfl

/-- Fewer than 65536 steps down do not come back to an address. -/
theorem sub_ofNat_ne_self (a : Word) {j : Nat} (hpos : 0 < j) (hlt : j < 65536) : a - BitVec.ofNat 16 j ≠ a := by
  intro h
  have hzero : j % 65536 = 0 := by simpa using congrArg BitVec.toNat (sub_eq_self.mp h)
  omega

@[simp] theorem State.pushReg_sp (q : Reg) : (s.pushReg q).sp = s.sp - 1 := by simp [State.sp]

theorem State.foldl_pushReg_sp (qs : List Reg) : (qs.foldl pushReg s).sp = s.sp - BitVec.ofNat 16 qs.length := by
  induction qs generalizing s with
  | nil => simp
  | cons q qs ih => rw [List.foldl_cons, ih, pushReg_sp, List.length_cons, sub_ofNat_succ]

/-- Pushes write no register but SP. -/
theorem State.foldl_pushReg_sameRegs (qs : List Reg) : SameRegs [.gr8] s (qs.foldl pushReg s) := by
  intro p hp
  induction qs generalizing s with
  | nil => rfl
  | cons q qs ih => rw [List.foldl_cons, ih, pushReg_reg, if_neg (List.mem_singleton.not.mp hp)]

/-- Pushes leave every word but as many below SP. -/
theorem State.foldl_pushReg_readMem_outside (qs : List Reg) (a : Word)
    (h : ∀ i < qs.length, s.sp - BitVec.ofNat 16 (i + 1) ≠ a) : (qs.foldl pushReg s).readMem a = s.readMem a := by
  induction qs generalizing s with
  | nil => rfl
  | cons q qs ih =>
    have hfirst : s.sp - 1 ≠ a := h 0 (Nat.zero_lt_succ _)
    rw [List.foldl_cons, ih, pushReg_readMem, if_neg hfirst]
    intro i hi
    rw [pushReg_sp, ← sub_ofNat_succ]
    exact h (i + 1) (Nat.succ_lt_succ hi)

theorem State.foldl_pushReg_sameMem (qs : List Reg) :
    SameMem ((List.range qs.length).map fun i => s.sp - BitVec.ofNat 16 (i + 1)) s (qs.foldl pushReg s) :=
  fun a ha => s.foldl_pushReg_readMem_outside qs a fun i hi hai =>
    ha (List.mem_map.mpr ⟨i, List.mem_range.mpr hi, hai⟩)

/-- Each push stores its register, and a push of SP the address that it stores at. -/
theorem State.foldl_pushReg_readMem (qs : List Reg) (hlen : qs.length ≤ 65536) {i : Nat} (hi : i < qs.length) :
    (qs.foldl pushReg s).readMem (s.sp - BitVec.ofNat 16 (i + 1)) =
      if qs[i] = .gr8 then s.sp - BitVec.ofNat 16 (i + 1) else s.reg qs[i] := by
  induction qs generalizing s i with
  | nil => exact absurd hi (Nat.not_lt_zero i)
  | cons q qs ih =>
    rw [List.length_cons] at hlen hi
    cases i with
    | zero =>
      rw [List.foldl_cons, foldl_pushReg_readMem_outside]
      · simp
      · intro j hj
        rw [pushReg_sp]
        exact sub_ofNat_ne_self (s.sp - 1) (Nat.succ_pos j) (by omega)
    | succ i =>
      have hrest := ih (s.pushReg q) (by omega) (Nat.lt_of_succ_lt_succ hi)
      rw [pushReg_sp, ← sub_ofNat_succ] at hrest
      rw [List.foldl_cons, hrest, List.getElem_cons_succ]
      by_cases hsp : qs[i] = .gr8
      · rw [if_pos hsp, if_pos hsp]
      · rw [if_neg hsp, if_neg hsp, pushReg_reg, if_neg hsp]

/-! A run of pops. -/

theorem State.popReg_sp {q : Reg} (hq : q ≠ .gr8) : (s.popReg q).sp = s.sp + 1 := by
  simp [State.sp, hq]

theorem State.popReg_reg_self {q : Reg} (hq : q ≠ .gr8) : (s.popReg q).reg q = s.readMem s.sp := by
  simp [hq]

/-- R221: a pop of GR8 takes SP past the word that it loads. -/
theorem State.popReg_gr8_sp : (s.popReg .gr8).sp = s.readMem s.sp + 1 := by simp [State.sp]

theorem State.foldl_popReg_sp {qs : List Reg} (hsp : .gr8 ∉ qs) :
    (qs.foldl popReg s).sp = s.sp + BitVec.ofNat 16 qs.length := by
  induction qs generalizing s with
  | nil => simp
  | cons q qs ih =>
    obtain ⟨hq, hqs⟩ := List.ne_and_not_mem_of_not_mem_cons hsp
    rw [List.foldl_cons, ih _ hqs, popReg_sp s (Ne.symm hq), List.length_cons, add_ofNat_succ]

theorem State.foldl_popReg_eq_mem (qs : List Reg) :
    qs.foldl popReg s = { s with gr := (qs.foldl popReg s).gr, mem := (qs.foldl popReg s).mem } := by
  rw [foldl_popReg_mem]
  exact s.foldl_popReg_eq qs

/-- Pops write no register but those they load and SP. -/
theorem State.foldl_popReg_sameRegs (qs : List Reg) : SameRegs (qs ++ [.gr8]) s (qs.foldl popReg s) := by
  intro p hp
  induction qs generalizing s with
  | nil => rfl
  | cons q qs ih =>
    have hp : p ≠ q ∧ p ∉ qs ∧ p ≠ .gr8 := by simpa using hp
    obtain ⟨hq, hqs, hsp⟩ := hp
    rw [List.foldl_cons, ih _ (by simp [hqs, hsp]), popReg_reg, if_neg hsp, if_neg hq]

/-- Each of different registers is loaded from its word, from SP on. -/
theorem State.foldl_popReg_reg {qs : List Reg} (hsp : .gr8 ∉ qs) (hdistinct : qs.Nodup) {i : Nat} (hi : i < qs.length) :
    (qs.foldl popReg s).reg qs[i] = s.readMem (s.sp + BitVec.ofNat 16 i) := by
  induction qs generalizing s i with
  | nil => exact absurd hi (Nat.not_lt_zero i)
  | cons q qs ih =>
    obtain ⟨hq, hqs⟩ := List.ne_and_not_mem_of_not_mem_cons hsp
    obtain ⟨hnew, hdistinct⟩ := List.nodup_cons.mp hdistinct
    cases i with
    | zero =>
      rw [List.foldl_cons, List.getElem_cons_zero, foldl_popReg_sameRegs _ qs q (by simp [hnew, Ne.symm hq]),
        popReg_reg_self s (Ne.symm hq)]
      simp
    | succ i =>
      rw [List.foldl_cons, List.getElem_cons_succ, ih _ hqs hdistinct (Nat.lt_of_succ_lt_succ hi), popReg_readMem,
        popReg_sp s (Ne.symm hq), add_ofNat_succ]

/-- R225: RPOP's first pop is of GR8, and the others follow the word that it loads. -/
theorem State.foldl_popReg_gr8_sp {qs : List Reg} (hsp : .gr8 ∉ qs) :
    ((.gr8 :: qs).foldl popReg s).sp = s.readMem s.sp + BitVec.ofNat 16 (qs.length + 1) := by
  rw [List.foldl_cons, foldl_popReg_sp _ hsp, popReg_gr8_sp, ← add_ofNat_succ]

theorem State.foldl_popReg_gr8_reg {qs : List Reg} (hsp : .gr8 ∉ qs) (hdistinct : qs.Nodup) {i : Nat} (hi : i < qs.length) :
    ((.gr8 :: qs).foldl popReg s).reg qs[i] = s.readMem (s.readMem s.sp + BitVec.ofNat 16 (i + 1)) := by
  rw [List.foldl_cons, foldl_popReg_reg _ hsp hdistinct hi, popReg_gr8_sp, popReg_readMem, ← add_ofNat_succ]

/-! RPUSH, RPOP and RET. -/

/-- R224: RPUSH is a run of pushes. -/
theorem exec_rpush : exec .rpush s = complete .n (savedRegs.foldl State.pushReg s) (.continue_ none) := rfl

/-- R225: the registers that RPOP loads after GR8, GR7..GR1. -/
def loadedRegs : List Reg := [.gr7, .gr6, .gr5, .gr4, .gr3, .gr2, .gr1]

/-- R225: RPOP is a pop of GR8 and then a run of pops of the other registers. -/
theorem exec_rpop : exec .rpop s = complete .n ((.gr8 :: loadedRegs).foldl State.popReg s) (.continue_ none) := rfl

theorem State.incSp_sameRegs : SameRegs [.gr8] s s.incSp := fun q hq => by
  rw [incSp_reg, if_neg (List.mem_singleton.not.mp hq)]

/-- R223, R273: RET at call level 0 ends the program. -/
theorem exec_ret_of_level_zero {s : State} (h : s.level = 0) : exec .ret s = .next (s.haltedBy .machineExit) := by
  change execRet s = _
  rw [execRet, h]
  rfl

/-- R223: RET above call level 0 takes SP past the top word and goes to that word plus 2. -/
theorem exec_ret_of_level_pos {s : State} (h : 0 < s.level) :
    exec .ret s = .next ((s.incSp.setLevel (s.level - 1)).arrive (s.readMem s.sp + 2)) := by
  change execRet s = _
  obtain ⟨level, hlevel⟩ := Nat.exists_eq_succ_of_ne_zero h.ne'
  rw [execRet, hlevel]
  rfl

end Sys2Proof.Machine
end

section
/-! PROOF. The statements on the stack, calls and returns (45_stack_call.md, R220 to R226). -/

namespace Sys2Proof.Proofs
open Sys2Proof Sys2Proof.Machine

/-- Settles O49: PUSH is a push of the address, which falls through. -/
theorem pushStoresTheAddressBelowTheStack : Obligations.PushStoresTheAddressBelowTheStack := by
  refine .of_names rfl fun adr x s q hx => ⟨_, withReg_of_names hx s _, ?_⟩
  obtain ⟨hsp, hword, hmem, hregs⟩ := s.pushWord_effect (s.ea adr q)
  exact ⟨hsp, hword, hmem, hregs, State.fallThrough_keepsRest rfl 2⟩

/-- Settles O50: POP is a pop into its register, which falls through; a pop of GR8 takes SP past the word that it loads. -/
theorem popLoadsTheTopWord : Obligations.PopLoadsTheTopWord := by
  intro r s
  have hrow : opcodeRow s.params 0x71 = some (.r .pop) := opcodeRow_fixed s.params rfl
  have hreads : OpRow.Reads r 0 (.r .pop) [] (.pop r) := .r .pop
  have hencoded := encodedAs_of_reads hrow hreads
  refine ⟨hencoded, fun p hp => ⟨_, withReg_of_names hp s _, fun hne => ⟨?word, s.popReg_sp hne⟩, ?gr8,
    s.foldl_popReg_sameRegs [p], fun _ _ => rfl, State.fallThrough_keepsRest rfl 1⟩,
    fun hnone => exec_of_namesNone hrow hreads ⟨r, List.mem_singleton_self r, hnone⟩ s⟩
  case word => exact s.popReg_reg_self hne
  case gr8 =>
    rintro rfl
    exact s.popReg_gr8_sp

/-- Settles O51: CALL is a push of PR that counts a level, and its address is that of the state before the push. -/
theorem callPushesItsOwnAddress : Obligations.CallPushesItsOwnAddress := by
  refine .of_names rfl fun adr x s q hx => ⟨_, withReg_of_names hx s _, ?_⟩
  obtain ⟨hsp, hword, hmem, hregs⟩ := s.pushWord_effect s.pr
  exact ⟨hsp, hword, rfl, hmem, hregs, State.arrive_keepsRest (s' := (s.pushWord s.pr).setLevel (s.level + 1)) rfl _⟩

/-- Settles O52: RET halts at level 0, and above it goes two words past the address that it pops. -/
theorem retReturnsPastTheCallOrEndsTheProgram : Obligations.RetReturnsPastTheCallOrEndsTheProgram := by
  intro s
  refine ⟨encodedAs_of_row_n (opcodeRow_fixed s.params rfl), exec_ret_of_level_zero, fun hlevel => ?_⟩
  obtain ⟨hflags, hhost, harrived⟩ :=
    State.arrive_keepsRest (s := s) (s' := s.incSp.setLevel (s.level - 1)) rfl (s.readMem s.sp + 2)
  exact ⟨_, exec_ret_of_level_pos hlevel, s.incSp_sp, rfl, harrived, s.incSp_sameRegs, fun _ _ => rfl, hflags, hhost⟩

/-- Settles O53: RPUSH is a run of pushes, the last of them of SP. -/
theorem rpushSavesTheRegisters : Obligations.RpushSavesTheRegisters := by
  intro s
  have hexec := exec_rpush s
  have hsp := s.foldl_pushReg_sp savedRegs
  have hword (i : Nat) (hi : i < savedRegs.length) := s.foldl_pushReg_readMem savedRegs (by decide) hi
  have hmem := s.foldl_pushReg_sameMem savedRegs
  have hregs := s.foldl_pushReg_sameRegs savedRegs
  have hrest := State.fallThrough_keepsRest (s.foldl_pushReg_eq savedRegs) 1
  -- The state after the pushes is known by these facts alone; running them to compare states is slow.
  generalize savedRegs.foldl State.pushReg s = pushed at hexec hsp hword hmem hregs hrest
  exact ⟨fun hp => encodedAs_of_row_n (opcodeRow_opcRpush hp), _, hexec, hsp,
    hword 0 (by decide), hword 1 (by decide), hword 2 (by decide), hword 3 (by decide), hword 4 (by decide),
    hword 5 (by decide), hword 6 (by decide), hword 7 (by decide), hmem, hregs, hrest⟩

/-- Settles O54: RPOP is a pop of SP and then, from the word after it on, a run of pops of other registers. -/
theorem rpopRestoresTheRegisters : Obligations.RpopRestoresTheRegisters := by
  intro s
  have hexec := exec_rpop s
  have hsp := s.foldl_popReg_gr8_sp (qs := loadedRegs) (by decide)
  have hreg (i : Nat) (hi : i < loadedRegs.length) := s.foldl_popReg_gr8_reg (by decide) (by decide) hi
  have hgr0 := s.foldl_popReg_sameRegs (.gr8 :: loadedRegs) .gr0 (by decide)
  have hmem := s.foldl_popReg_mem (.gr8 :: loadedRegs)
  have hrest := State.fallThrough_keepsRest (s.foldl_popReg_eq_mem (.gr8 :: loadedRegs)) 1
  generalize (.gr8 :: loadedRegs).foldl State.popReg s = popped at hexec hsp hreg hgr0 hmem hrest
  exact ⟨fun hp => encodedAs_of_row_n (opcodeRow_opcRpop hp), _, hexec,
    ⟨hsp, hreg 0 (by decide), hreg 1 (by decide), hreg 2 (by decide), hreg 3 (by decide), hreg 4 (by decide),
      hreg 5 (by decide), hreg 6 (by decide)⟩, hgr0, .of_mem_eq hmem [], hrest⟩

/-- Settles O55: RPOP reads each register where RPUSH has saved it, since the word at the SP that RPUSH leaves is that SP. -/
theorem rpushThenRpopRestoresEveryRegister : Obligations.RpushThenRpopRestoresEveryRegister := by
  intro s
  obtain ⟨-, t, ht, hsp, hsaved1, hsaved2, hsaved3, hsaved4, hsaved5, hsaved6, hsaved7, hsaved8, -, hregs, hflags, hrest,
    ⟨hpr, -⟩⟩ := rpushSavesTheRegisters s
  obtain ⟨-, u, hu, hload, hgr0, -, hflags', hrest', ⟨hpr', -⟩⟩ := rpopRestoresTheRegisters t
  -- The word at SP - 8 + k is the one at SP - (8 - k).
  simp only [hsp, hsaved8, sub_add_cancel, sub_add] at hload
  obtain ⟨hsp', hloaded7, hloaded6, hloaded5, hloaded4, hloaded3, hloaded2, hloaded1⟩ := hload
  refine ⟨t, u, ht, hu, fun q _ => ?regs, hflags.trans hflags', hrest.trans hrest', ?pr⟩
  case regs =>
    cases q with
    | gr0 => exact hgr0.trans (hregs .gr0 (by decide))
    | gr1 => exact hloaded1.trans hsaved1
    | gr2 => exact hloaded2.trans hsaved2
    | gr3 => exact hloaded3.trans hsaved3
    | gr4 => exact hloaded4.trans hsaved4
    | gr5 => exact hloaded5.trans hsaved5
    | gr6 => exact hloaded6.trans hsaved6
    | gr7 => exact hloaded7.trans hsaved7
    | gr8 => exact hsp'
  case pr =>
    rw [hpr', hpr, add_assoc]
    rfl

/-- Settles O56: the word that RET pops is the address of the CALL. -/
theorem retUndoesItsCall : Obligations.RetUndoesItsCall := by
  intro s adr x q hx
  obtain ⟨-, hcall, -⟩ := callPushesItsOwnAddress adr x s
  obtain ⟨t, ht, hsp, hword, hlevel, -⟩ := hcall q hx
  refine ⟨t, ht, fun u husp hulevel huword => ?_⟩
  obtain ⟨-, -, hret⟩ := retReturnsPastTheCallOrEndsTheProgram u
  obtain ⟨v, hv, hvsp, hvlevel, ⟨hvpr, -⟩, -⟩ := hret (by omega)
  refine ⟨v, hv, ?pr, ?sp, by omega⟩
  case pr => rw [hvpr, huword, hsp, hword]
  case sp => rw [hvsp, husp, hsp, sub_add_cancel]

end Sys2Proof.Proofs
end

section
/-! SUPPORT. R253, R270: which instructions answer a next state, and the answers of the line provider. -/

namespace Sys2Proof.Machine

/-- R87, R273: whatever the handler's result, the end of a step answers a next state. -/
theorem complete_exists_next (s : State) (shape : Shape) (r : HandlerResult) : ∃ t, complete shape s r = .next t := by
  rcases complete_cases s shape r with ⟨f, p, h⟩ | ⟨-, h⟩
  · exact ⟨_, h⟩
  · exact ⟨_, h⟩

/-- R79: the check of one field answers a next state where the handler does. -/
theorem withReg_exists_next (s : State) (f : RegField) {handler : Reg → StepOutcome}
    (hh : ∀ q, ∃ t, handler q = .next t) : ∃ t, withReg f s handler = .next t := by
  rcases withReg_cases f s handler with ⟨q, -, h⟩ | ⟨-, h⟩
  · rw [h]
    exact hh q
  · exact ⟨_, h⟩

/-- R79: the check of two fields answers a next state where the handler does. -/
theorem withRegs_exists_next (s : State) (f g : RegField) {handler : Reg → Reg → StepOutcome}
    (hh : ∀ p q, ∃ t, handler p q = .next t) : ∃ t, withRegs f g s handler = .next t :=
  withReg_exists_next s f fun p => withReg_exists_next s g (hh p)

/-- R223, R273: RET answers a next state at every call level. -/
theorem exec_ret_exists_next (s : State) : ∃ t, exec .ret s = .next t := by
  rcases Nat.eq_zero_or_pos s.level with hzero | hpos
  · exact ⟨_, exec_ret_of_level_zero hzero⟩
  · exact ⟨_, exec_ret_of_level_pos hpos⟩

/-- R252: OUT sends the words it reads and falls through. -/
theorem exec_output (s : State) (buf lenadr : Word) :
    exec (.output buf lenadr) s =
      complete .s (s.sendLine (s.readWords buf (s.readMem lenadr).toNat)) (.continue_ none) := rfl

/-- R270: every instruction but IN answers a next state. -/
theorem exec_exists_next {i : Instr} (hi : ∀ buf lenadr, i ≠ .input buf lenadr) (s : State) : ∃ t, exec i s = .next t := by
  cases i with
  | ldAdr r adr x | st r adr x | lad r adr x
  | addaAdr r adr x | subaAdr r adr x | addlAdr r adr x | sublAdr r adr x
  | andAdr r adr x | orAdr r adr x | xorAdr r adr x | cpaAdr r adr x | cplAdr r adr x
  | sla r adr x | sra r adr x | sll r adr x | srl r adr x =>
    exact withRegs_exists_next s r x fun _ _ => complete_exists_next _ .rax _
  | ldReg r1 r2 | addaReg r1 r2 | subaReg r1 r2 | addlReg r1 r2 | sublReg r1 r2
  | andReg r1 r2 | orReg r1 r2 | xorReg r1 r2 | cpaReg r1 r2 | cplReg r1 r2 =>
    exact withRegs_exists_next s r1 r2 fun _ _ => complete_exists_next _ .rr _
  | jmi adr x | jnz adr x | jze adr x | jump adr x | jpl adr x | jov adr x
  | push adr x | call adr x | svc adr x =>
    exact withReg_exists_next s x fun _ => complete_exists_next _ .ax _
  | pop r => exact withReg_exists_next s r fun _ => complete_exists_next _ .r _
  | ret => exact exec_ret_exists_next s
  | rpush => exact exec_rpush s ▸ complete_exists_next _ .n _
  | rpop => exact exec_rpop s ▸ complete_exists_next _ .n _
  | output buf lenadr => exact exec_output s buf lenadr ▸ complete_exists_next _ .s _
  | input buf lenadr => exact absurd rfl (hi buf lenadr)

/-- R253: the next answer is the first the host has ready. -/
theorem State.nextAnswer_of_cons {s : State} {answer : ConsoleAnswer} {rest : List ConsoleAnswer}
    (h : s.consoleIn = answer :: rest) : s.nextAnswer = answer := by
  rw [State.nextAnswer, h]

/-- R253: where the host has no answer ready, the next one is a free line. -/
theorem State.nextAnswer_of_nil {s : State} (h : s.consoleIn = []) :
    s.nextAnswer = .line (Config.freeLine s.consoleReads) := by
  rw [State.nextAnswer, h]

/-- R253: a provider that never answers is one the host has listed. -/
theorem State.consoleIn_of_nextAnswer_never {s : State} (h : s.nextAnswer = .never) :
    ∃ rest, s.consoleIn = .never :: rest := by
  cases hin : s.consoleIn with
  | nil =>
    rw [State.nextAnswer_of_nil hin] at h
    cases h
  | cons answer rest =>
    rw [State.nextAnswer_of_cons hin] at h
    exact ⟨rest, by rw [h]⟩

/-- R251: IN that is answered stores the line and falls through. -/
theorem exec_input_of_line {s : State} {codes : List Nat} (h : s.nextAnswer = .line codes) (buf lenadr : Word) :
    exec (.input buf lenadr) s =
      complete .s (s.consumeAnswer.storeLine inMaxChars buf lenadr codes) (.continue_ none) := by
  change execInput buf lenadr s = _
  rw [execInput, h]

/-- R253: IN that is never answered is stuck. -/
theorem exec_input_of_never {s : State} (h : s.nextAnswer = .never) (buf lenadr : Word) :
    exec (.input buf lenadr) s = .fault .consoleNeverAnswers := by
  change execInput buf lenadr s = _
  rw [execInput, h]

/-- R253, R270: an instruction answers a next state, or it is an IN whose provider never answers. -/
theorem exec_next_or_stuck (i : Instr) (s : State) :
    (∃ t, exec i s = .next t) ∨
    (∃ buf lenadr, i = .input buf lenadr ∧ s.nextAnswer = .never ∧ exec i s = .fault .consoleNeverAnswers) := by
  by_cases hi : ∃ buf lenadr, i = .input buf lenadr
  · obtain ⟨buf, lenadr, rfl⟩ := hi
    cases h : s.nextAnswer with
    | line codes => exact .inl ⟨_, exec_input_of_line h buf lenadr⟩
    | never => exact .inr ⟨buf, lenadr, rfl, rfl, exec_input_of_never h buf lenadr⟩
  · exact .inl (exec_exists_next (fun buf lenadr h => hi ⟨buf, lenadr, h⟩) s)

end Sys2Proof.Machine
end

section
/-! SUPPORT. R72, R251, R252: the words of an instruction of shape S, and what a stored line leaves in memory. -/

namespace Sys2Proof.Machine

/-- R72, R80: an instruction of shape S is encoded as its opcode byte above a byte of ignored bits, written 0, and its two
addresses. -/
theorem encodedAs_of_row_s {p : Params} {op : Byte} {mk : Word → Word → Instr} (hrow : opcodeRow p op = some (.s mk))
    (buf lenadr : Word) : EncodedAs p (mk buf lenadr) [op ++ (0 : Byte), buf, lenadr] := by
  have hreads : OpRow.Reads 0 0 (.s mk) [buf, lenadr] (mk buf lenadr) := .s mk buf lenadr
  have hencoded := encodedAs_of_reads hrow hreads
  exact word1_zero_zero op ▸ hencoded

/-- R6: the word of a natural number. -/
theorem u16_natCast (n : Nat) : u16 n = BitVec.ofNat 16 n := BitVec.ofInt_natCast 16 n

section
variable (s : State) (maxChars : Nat) (buf lenadr : Word) (codes : List Nat)

/-- R251: a line leaves its count at `lenadr`, and elsewhere what its codes leave. -/
theorem State.storeLine_readMem (a : Word) :
    (s.storeLine maxChars buf lenadr codes).readMem a =
      if lenadr = a then BitVec.ofNat 16 (min codes.length maxChars)
      else (s.storeCodes buf (codes.take maxChars)).readMem a := by
  rw [State.storeLine, State.readMem_writeMem, ← Nat.cast_min, u16_natCast]

/-- R251: a code stays where no later code and not the count is stored. -/
theorem State.storeLine_readMem_code {i : Nat} (hi : i < min codes.length maxChars)
    (hlast : ∀ j, i < j → j < min codes.length maxChars → buf + BitVec.ofNat 16 j ≠ buf + BitVec.ofNat 16 i)
    (hne : buf + BitVec.ofNat 16 i ≠ lenadr) :
    some ((s.storeLine maxChars buf lenadr codes).readMem (buf + BitVec.ofNat 16 i)) =
      codes[i]?.map (BitVec.ofNat 16) := by
  have hlength : (codes.take maxChars).length = min codes.length maxChars := by rw [List.length_take, min_comm]
  rw [← hlength] at hi hlast
  have hcode : i < codes.length := by omega
  rw [State.storeLine_readMem, if_neg (Ne.symm hne), State.storeCodes_readMem_last s buf _ i hi hlast, u16_natCast,
    List.getElem_take, List.getElem?_eq_getElem hcode, Option.map_some]

/-- R251: a line leaves every word but the count and those its codes are stored at. -/
theorem State.storeLine_readMem_outside {a : Word} (hne : a ≠ lenadr)
    (hout : ∀ i, i < min codes.length maxChars → buf + BitVec.ofNat 16 i ≠ a) :
    (s.storeLine maxChars buf lenadr codes).readMem a = s.readMem a := by
  rw [State.storeLine_readMem, if_neg (Ne.symm hne)]
  refine s.storeCodes_readMem_outside buf a _ fun i hi => hout i ?_
  rwa [List.length_take, min_comm] at hi

end

/-- R87, R90: a step that changes the memory alone, and falls through, keeps the registers and the rest. -/
theorem State.fallThrough_keepsAllButMem {s s' : State} (h : s' = { s with mem := s'.mem }) (n : Nat) :
    SameRegs [] s (s'.arrive (s'.pr + BitVec.ofNat 16 n)) ∧ SameFlags s (s'.arrive (s'.pr + BitVec.ofNat 16 n)) ∧
      SameRest s (s'.arrive (s'.pr + BitVec.ofNat 16 n)) ∧ FellThrough n s (s'.arrive (s'.pr + BitVec.ofNat 16 n)) := by
  rw [h]
  exact ⟨fun _ _ => rfl, State.fallThrough_keepsRest rfl n⟩

end Sys2Proof.Machine
end

section
/-! PROOF. The statements on the supervisor call and the console (46_system_io.md, R250 to R253). -/

namespace Sys2Proof.Proofs
open Sys2Proof Sys2Proof.Machine

/-- Settles O9: a step that is not an instruction has a next state, and so has every instruction but an IN that is never
answered. -/
theorem onlyAnUnansweredInIsStuck : Obligations.OnlyAnUnansweredInIsStuck := by
  intro s
  rcases step_cases s with ⟨-, hstep⟩ | ⟨i, -, hfetch, hstep⟩ | ⟨_, -, -, hstep⟩
  · exact .inl ⟨_, hstep⟩
  · rw [hstep]
    rcases exec_next_or_stuck i s with hnext | ⟨buf, lenadr, rfl, hnever, hstuck⟩
    · exact .inl hnext
    · obtain ⟨rest, hin⟩ := State.consoleIn_of_nextAnswer_never hnever
      exact .inr ⟨buf, lenadr, rest, hfetch, hin, hstuck⟩
  · exact .inl ⟨_, hstep⟩

/-- Settles O57: SVC is a jump to PR, which arrives where it was. -/
theorem svcJumpsToItself : Obligations.SvcJumpsToItself :=
  .of_names rfl fun _ _ s _ hx => ⟨s.arrive s.pr, withReg_of_names hx s _, rfl⟩

/-- Settles O58: IN takes the provider's answer, stores the line, which changes the memory alone, and falls through. -/
theorem inStoresTheLineAndItsCount : Obligations.InStoresTheLineAndItsCount := by
  intro buf lenadr s
  refine ⟨fun hp => encodedAs_of_row_s (opcodeRow_opcIn hp) buf lenadr, fun codes rest hanswer => ?line,
    fun rest hin => exec_input_of_never (State.nextAnswer_of_cons hin) buf lenadr⟩
  case line =>
    have hnext : s.nextAnswer = .line codes ∧ s.consumeAnswer.consoleIn = rest := by
      rcases hanswer with hin | ⟨hin, rfl, rfl⟩
      · exact ⟨State.nextAnswer_of_cons hin, congrArg List.tail hin⟩
      · exact ⟨State.nextAnswer_of_nil hin, congrArg List.tail hin⟩
    obtain ⟨hline, hrest⟩ := hnext
    have hcount := s.consumeAnswer.storeLine_readMem inMaxChars buf lenadr codes lenadr
    rw [if_pos rfl] at hcount
    obtain ⟨hregs, hflags, ⟨hlevel, hparams, hbreakpoints, hin, hreads, hout⟩, hfell⟩ :=
      State.fallThrough_keepsAllButMem (s.consumeAnswer.storeLine_eq inMaxChars buf lenadr codes) 3
    exact ⟨_, exec_input_of_line hline buf lenadr,
      ⟨hcount, fun _ => s.consumeAnswer.storeLine_readMem_code inMaxChars buf lenadr codes,
        fun _ => s.consumeAnswer.storeLine_readMem_outside inMaxChars buf lenadr codes⟩,
      hin.trans hrest, hreads, hout, hregs, hflags, hlevel, hparams, hbreakpoints, hfell⟩

/-- Settles O59: OUT sends the words it reads and falls through. -/
theorem outSendsTheBuffer : Obligations.OutSendsTheBuffer := by
  intro buf lenadr s
  refine ⟨fun hp => encodedAs_of_row_s (opcodeRow_opcOut hp) buf lenadr, _,
    s.readWords buf (s.readMem lenadr).toNat, exec_output s buf lenadr, rfl, s.readWords_length buf _, fun i hi => ?word, ?frame⟩
  case word => rw [List.getElem?_eq_getElem hi, s.readWords_getElem]
  case frame =>
    exact ⟨rfl, rfl, fun _ _ => rfl, fun _ _ => rfl, ⟨rfl, rfl, rfl⟩, rfl, rfl, rfl, State.arrived_arrive _ _⟩

end Sys2Proof.Proofs
end

section
/-! SUPPORT. R284: the breakpoint set as a part of the host that no step sees or changes. -/

namespace Sys2Proof.Machine

/-- Sets the breakpoint set (R284). -/
def HostUpdate.setBreakpoints (bp : List Nat) : HostUpdate := { breakpoints := fun _ => bp }

/-- R284: no instruction sees the breakpoint set. -/
theorem HostUpdate.setBreakpoints_unseen (i : Instr) (s : State) (bp : List Nat) : (setBreakpoints bp).Unseen i s :=
  ⟨.inl rfl, .inr ⟨rfl, rfl⟩, .inr rfl⟩

/-- R284: no step depends on the breakpoint set. -/
theorem step_setBreakpoints (s : State) (bp : List Nat) :
    step ((HostUpdate.setBreakpoints bp).apply s) = mapNext (HostUpdate.setBreakpoints bp).apply (step s) := by
  have hstatus : ((HostUpdate.setBreakpoints bp).apply s).status = s.status := rfl
  have hfetch : ((HostUpdate.setBreakpoints bp).apply s).fetch = s.fetch := State.fetch_congr rfl rfl rfl
  rcases step_cases s with ⟨hs, e⟩ | ⟨i, hs, hf, e⟩ | ⟨_, hs, hf, e⟩ <;> rw [e]
  · exact step_of_isHalted hs
  · rw [step_of_fetch_ok (hstatus ▸ hs) (hfetch.trans hf)]
    exact HostUpdate.exec_apply (HostUpdate.setBreakpoints_unseen i s bp)
  · exact step_of_fetch_error hs (hfetch.trans hf)

/-- R284: no step changes the breakpoint set. -/
theorem step_breakpoints {s t : State} (ht : step s = .next t) : t.breakpoints = s.breakpoints := by
  rcases step_cases s with ⟨-, e⟩ | ⟨i, -, -, e⟩ | ⟨_, -, -, e⟩ <;> rw [e] at ht
  · cases ht
    rfl
  · exact exec_breakpoints ht
  · cases ht
    rfl

end Sys2Proof.Machine
end

section
/-! SUPPORT. R285: a run and iterated steps, one step at a time. -/

namespace Sys2Proof.Machine

/-- R285: the check that `run` makes after a step. -/
theorem State.atStop_iff {bp : List Nat} {s : State} : s.atStop bp = true ↔ StopsRun bp s := by
  simp [State.atStop, StopsRun]

/-- One step more, made first. -/
theorem afterSteps_succ_iff {k : Nat} {s t : State} :
    afterSteps (k + 1) s = some t ↔ ∃ u, step s = .next u ∧ afterSteps k u = some t := by
  rw [afterSteps]
  cases step s with
  | next u => simp
  | fault _ | refused _ => simp

/-- R285: a run with a step to make stops after it, or goes on where it does not stop. -/
theorem run_succ_iff {bp : List Nat} {fuel : Nat} {s t : State} :
    run bp (fuel + 1) s = .stopped t ↔
      ∃ u, step s = .next u ∧ ((StopsRun bp u ∧ u = t) ∨ (¬ StopsRun bp u ∧ run bp fuel u = .stopped t)) := by
  rw [run]
  cases step s with
  | next u => by_cases h : StopsRun bp u <;> simp [State.atStop_iff, h]
  | fault _ | refused _ => simp

/-- R285: `k` steps lead to `t`, the first state after `s` at which a run stops. -/
structure FirstStop (bp : List Nat) (k : Nat) (s t : State) : Prop where
  pos : 1 ≤ k
  after : afterSteps k s = some t
  stops : StopsRun bp t
  first : ∀ j, 1 ≤ j → j < k → ∀ u, afterSteps j s = some u → ¬ StopsRun bp u

/-- R285: the first stop is where the first step leads, or it is the first stop from there. -/
theorem firstStop_succ_iff {bp : List Nat} {k : Nat} {s t : State} :
    FirstStop bp (k + 1) s t ↔
      ∃ u, step s = .next u ∧ ((StopsRun bp u ∧ k = 0 ∧ u = t) ∨ (¬ StopsRun bp u ∧ FirstStop bp k u t)) := by
  constructor
  · rintro ⟨-, hafter, hstops, hfirst⟩
    obtain ⟨u, hu, hut⟩ := afterSteps_succ_iff.mp hafter
    refine ⟨u, hu, ?_⟩
    cases k with
    | zero =>
      cases hut
      exact .inl ⟨hstops, rfl, rfl⟩
    | succ k =>
      exact .inr ⟨hfirst 1 le_rfl (by omega) u (afterSteps_succ_iff.mpr ⟨u, hu, rfl⟩), by omega, hut, hstops,
        fun j _ hjk v hv => hfirst (j + 1) (by omega) (by omega) v (afterSteps_succ_iff.mpr ⟨u, hu, hv⟩)⟩
  · rintro ⟨u, hu, ⟨hstops, rfl, rfl⟩ | ⟨hgoes, hpos, hafter, hstops, hfirst⟩⟩
    · exact ⟨le_rfl, afterSteps_succ_iff.mpr ⟨u, hu, rfl⟩, hstops, fun j hj hj1 => absurd hj1 (by omega)⟩
    · refine ⟨by omega, afterSteps_succ_iff.mpr ⟨u, hu, hafter⟩, hstops, fun j hj hjk v hv => ?_⟩
      obtain ⟨j, rfl⟩ := Nat.exists_eq_add_one.mpr hj
      obtain ⟨u', hu', hv⟩ := afterSteps_succ_iff.mp hv
      obtain rfl : u = u' := Host.Outcome.next.inj (hu.symm.trans hu')
      cases j with
      | zero =>
        cases hv
        exact hgoes
      | succ j => exact hfirst (j + 1) (by omega) (by omega) v hv

/-- R285: a run returns at the first stop, where that lies within its bound. -/
theorem run_eq_stopped_iff {bp : List Nat} {fuel : Nat} {s t : State} :
    run bp fuel s = .stopped t ↔ ∃ k, k ≤ fuel ∧ FirstStop bp k s t := by
  induction fuel generalizing s with
  | zero =>
    constructor
    · intro h
      cases h
    · rintro ⟨k, hk, hfirst⟩
      exact absurd hfirst.pos (by omega)
  | succ fuel ih =>
    rw [run_succ_iff]
    constructor
    · rintro ⟨u, hu, ⟨hstops, hut⟩ | ⟨hgoes, hrun⟩⟩
      · exact ⟨1, by omega, firstStop_succ_iff.mpr ⟨u, hu, .inl ⟨hstops, rfl, hut⟩⟩⟩
      · obtain ⟨k, hk, hfirst⟩ := ih.mp hrun
        exact ⟨k + 1, by omega, firstStop_succ_iff.mpr ⟨u, hu, .inr ⟨hgoes, hfirst⟩⟩⟩
    · rintro ⟨k, hk, hfirst⟩
      obtain ⟨k, rfl⟩ := Nat.exists_eq_add_one.mpr hfirst.pos
      obtain ⟨u, hu, ⟨hstops, -, hut⟩ | ⟨hgoes, hrest⟩⟩ := firstStop_succ_iff.mp hfirst
      · exact ⟨u, hu, .inl ⟨hstops, hut⟩⟩
      · exact ⟨u, hu, .inr ⟨hgoes, ih.mpr ⟨k, by omega, hrest⟩⟩⟩

end Sys2Proof.Machine
end

section
/-! SUPPORT. R274, R300, R301: which streams a load takes, and what a loaded state holds. -/

namespace Sys2Proof.Machine

/-- R274: a load takes a stream with a whole header and a payload that fits in memory. -/
theorem loadError_eq_none_iff {stream : List Word} :
    loadError stream = none ↔ 8 ≤ stream.length ∧ stream.length ≤ 8 + 65536 := by
  unfold loadError headerWords memWords
  split_ifs with hshort hlong
  · exact iff_of_false nofun (by omega)
  · exact iff_of_false nofun (by omega)
  · exact iff_of_true rfl (by omega)

variable (s : State) (stream : List Word)

/-- R300: the payload lies in memory from address 0 on, and zeros after it. -/
theorem State.loaded_readMem (a : Word) : (s.loaded stream).readMem a = stream[8 + a.toNat]?.getD 0 := by
  simp [State.readMem, State.loaded, Memory.read_ofWords, headerWords, Memory.unlisted]

/-- R301: the registers after a load. -/
theorem State.loaded_reg (q : Reg) : (s.loaded stream).reg q = if q = .gr8 then spInit else 0 := by
  cases q <;> rfl

/-- R302: PR after a load is the word of the header that holds it. -/
theorem State.some_loaded_pr {stream : List Word} (h : 8 ≤ stream.length) :
    some (s.loaded stream).pr = stream[2]? := by
  have hlt : 2 < stream.length := by omega
  simp [State.loaded, prHeaderIndex, hlt]

/-- R300: a load of a stream that is not refused establishes the invariant. -/
theorem Inv.loaded {s : State} {stream : List Word} (hbreakpoints : BreakpointsOk s.breakpoints)
    (hparams : s.params.ok = true) (h : loadError stream = none) : Inv (s.loaded stream) where
  mem := by
    obtain ⟨-, hlong⟩ := loadError_eq_none_iff.mp h
    refine Memory.ofWords_wfFrom _ 0 ?_
    rw [List.length_drop, headerWords, memWords]
    omega
  level := Nat.le_refl 0
  status := rfl
  breakpoints := hbreakpoints
  params := hparams

/-- A stream that has its header and no payload is not refused. -/
theorem loadError_programStream_nil (entry : Word) : loadError (programStream entry []) = none :=
  loadError_eq_none_iff.mpr ⟨le_rfl, by simp [programStream]⟩

/-- R301: what a load of no payload makes of a machine with the default parameters and a host that has set nothing. -/
theorem State.loaded_programStream_nil {s : State} (hparams : s.params = defaultParams) (hbreakpoints : s.breakpoints = [])
    (hin : s.consoleIn = []) (hreads : s.consoleReads = 0) (hout : s.consoleOut = []) :
    s.loaded (programStream resetEntry []) = State.reset := by
  rw [State.loaded, hparams, hbreakpoints, hin, hreads, hout]
  rfl

end Sys2Proof.Machine
end

section
/-! PROOF. The statements on what the host does to the machine (60_exceptions.md) and on load and reset
(70_reset_and_hazards.md). -/

namespace Sys2Proof.Proofs
open Sys2Proof Sys2Proof.Machine

/-- Settles O15: setting the breakpoint set is an update of the host that no step sees, and every step keeps the field. -/
theorem breakpointsHaveNoEffectOnAStep : Obligations.BreakpointsHaveNoEffectOnAStep :=
  fun s bp => ⟨step_setBreakpoints s bp, fun _ => step_breakpoints⟩

/-- Settles O22: by induction on the bound, a run and the first stop being followed one step at a time. -/
theorem runStopsAtTheFirstHaltOrBreakpoint : Obligations.RunStopsAtTheFirstHaltOrBreakpoint := by
  intro bp fuel s t
  rw [run_eq_stopped_iff]
  constructor
  · rintro ⟨k, hk, hpos, hafter, hstops, hfirst⟩
    exact ⟨k, hpos, hk, hafter, hstops, hfirst⟩
  · rintro ⟨k, hpos, hk, hafter, hstops, hfirst⟩
    exact ⟨k, hk, hpos, hafter, hstops, hfirst⟩

/-- Settles O20: a load that is not refused has a stream within both bounds. -/
theorem loadOfABadStreamIsRefused : Obligations.LoadOfABadStreamIsRefused := by
  intro s stream hbad
  rcases load_cases stream s with ⟨e, -, hload⟩ | ⟨hnone, -⟩
  · exact ⟨e, hload⟩
  · obtain ⟨hshort, hlong⟩ := loadError_eq_none_iff.mp hnone
    omega

/-- Settles O18: within both bounds the stream is loaded, and each item is a field that `State.loaded` sets or keeps. -/
theorem loadResetsEverything : Obligations.LoadResetsEverything := by
  intro s stream hshort hlong
  refine ⟨s.loaded stream, ?accepted, fun a w hw => ?payload, fun a ha => ?zeros, fun q hq => ?registers,
    s.loaded_reg stream .gr8, s.some_loaded_pr hshort, rfl, rfl, rfl, s.loaded_fr stream, rfl, rfl, rfl, rfl, rfl⟩
  case accepted => rw [load, loadError_eq_none_iff.mpr ⟨hshort, hlong⟩]
  case payload => rw [State.loaded_readMem, hw, Option.getD_some]
  case zeros => rw [State.loaded_readMem, List.getElem?_eq_none ha, Option.getD_none]
  case registers => rw [State.loaded_reg, if_neg hq]

/-- Settles O24: the payload of a stream that is not refused fits in memory, and the rest is what a load sets or keeps. -/
theorem loadEstablishesTheInvariant : Obligations.LoadEstablishesTheInvariant := by
  intro s stream hbreakpoints hparams haccepted
  rcases load_cases stream s with ⟨_, -, hload⟩ | ⟨hnone, hload⟩ <;> rw [hload] at haccepted ⊢
  · cases haccepted
  · exact .loaded hbreakpoints hparams hnone

/-- Settles O21: the header alone is a stream that is not refused, and the load leaves what the host has not set. -/
theorem resetIsTheStateAfterAnEmptyLoad : Obligations.ResetIsTheStateAfterAnEmptyLoad := by
  intro s hparams hbreakpoints hin hreads hout
  rw [load, loadError_programStream_nil, State.loaded_programStream_nil hparams hbreakpoints hin hreads hout]

/-- Settles O23: the state after reset is one that a load has left. -/
theorem invariantHoldsAtReset : Obligations.InvariantHoldsAtReset := by
  have hloaded : State.reset.loaded (programStream resetEntry []) = State.reset :=
    State.loaded_programStream_nil rfl rfl rfl rfl rfl
  unfold Obligations.InvariantHoldsAtReset
  rw [← hloaded]
  exact .loaded ⟨.nil, nofun⟩ defaultParams_ok (loadError_programStream_nil resetEntry)

end Sys2Proof.Proofs
end
